-- ==== Sys2Proof/Word.lean ====
section
/-! DEFINITION. The machine's word, byte and block types (00_scope.md R4, R10). -/

namespace Sys2Proof

/-- A word: a 32-bit unsigned integer; `+` on it is addition modulo 2^32, `^^^` exclusive-or (R4, R10, R120). -/
abbrev Word := BitVec 32

/-- A byte (R10). -/
abbrev Byte := BitVec 8

/-- A block: "an ordered pair of 32-bit unsigned words (left, right)" (R4). -/
abbrev Block := Word × Word

end Sys2Proof
end

