-- ==== Sys2Proof/Syntax.lean ====
section
/-! DEFINITION. The engine's commands (30_encoding.md R70 to R73): one constructor per row of spec/opcode_table.json. -/

namespace Sys2Proof

/-- A command word, decoded. No command has operand fields (R71). -/
inductive Instr where
  /-- KEYSET: bind the key in IN (R72, R108). -/
  | keyset
  /-- ENCRYPT: pad and encipher the plaintext in IN (R72, R143). -/
  | encrypt
  /-- DECRYPT: decipher the ciphertext in IN and strip the pad (R72, R145). -/
  | decrypt
  /-- Every other word, by its fields OP = [3:0] and MBZ = [31:4] (R70, R73). -/
  | illegal (op : BitVec 4) (mbz : BitVec 28)
  deriving DecidableEq, Repr

end Sys2Proof
end

