-- ==== Sys2Proof/WellFormed.lean ====
section
/-! DEFINITION. Which terms of Instr stand for a command word (30_encoding.md R72, R73). -/

namespace Sys2Proof

/-- A word is illegal when MBZ is nonzero or OP is none of 1, 2, 3 (R73); the three legal commands have no fields. -/
def Instr.wf : Instr → Bool
  | .keyset => true
  | .encrypt => true
  | .decrypt => true
  | .illegal op mbz => mbz != 0 || (op != 1 && op != 2 && op != 3)

end Sys2Proof
end

