-- ==== Sys2Proof/Decode.lean ====
section
/-! DEFINITION. Decoding a command word, total on every 32-bit word (30_encoding.md R70 to R74), and encoding one.
A command word reaches the engine as one 32-bit integer (20_memory.md R54), never as bytes, so there is no byte order and no
length to decode. A word that encodes no command is not turned away: it decodes to the illegal command, which runs. -/

namespace Sys2Proof

/-- The field OP, bits [3:0] (R70). -/
def opField (w : Word) : BitVec 4 := w.extractLsb' 0 4

/-- The field MBZ, bits [31:4] (R70). -/
def mbzField (w : Word) : BitVec 28 := w.extractLsb' 4 28

/-- R74's decode. -/
def decode (w : Word) : Instr :=
  if mbzField w ≠ 0 then .illegal (opField w) (mbzField w)
  else if opField w = 0x1 then .keyset
  else if opField w = 0x2 then .encrypt
  else if opField w = 0x3 then .decrypt
  else .illegal (opField w) (mbzField w)

/-- The command word with the given fields (R70). -/
def commandWord (op : BitVec 4) (mbz : BitVec 28) : Word := mbz ++ op

/-- The command word of an instruction (R72); an illegal word is its own fields (R73). -/
def encode : Instr → Word
  | .keyset => commandWord 0x1 0
  | .encrypt => commandWord 0x2 0
  | .decrypt => commandWord 0x3 0
  | .illegal op mbz => commandWord op mbz

/-- The decoder on a row of spec/opcode_table.json: every row is one 32-bit word, and its bits above `nbits` are zero.
A longer instruction does not exist (R70). -/
def decodeTableWord (nbits w : Nat) : Option Instr :=
  if nbits ≤ 32 ∧ w < 2 ^ nbits then some (decode (BitVec.ofNat 32 w)) else none

end Sys2Proof
end

