-- ==== Sys2Proof/Config.lean ====
section
/-! DEFINITION. What is fixed for one machine (00_scope.md R3, R7) and the free values: the values the spec calls
unspecified, which no rule fixes (R11, 93_implementation_defined.md I3, I4, I5). A free value is an opaque constant, so a
statement about it holds whatever it is. -/

namespace Sys2Proof

/-- The parameters of R7 that are arguments of the model. -/
structure Config where
  /-- CAP, the size in bytes of IN and of OUT (R7, R35). -/
  cap : Nat
  /-- BASE, the bus address of the window (R7, R53). -/
  base : Nat
  /-- CONST_TABLE (R24, R101): read by the key schedule only. -/
  constTable : Vector Word 20
  deriving DecidableEq, Repr

/-- R7's limits: CAP is a multiple of 8 with 16 <= CAP <= 65536, and BASE is a multiple of 2^18. -/
abbrev Config.wf (c : Config) : Prop :=
  c.cap % 8 = 0 ∧ 16 ≤ c.cap ∧ c.cap ≤ 65536 ∧ c.base % 0x40000 = 0

/-- NR, the number of Feistel rounds: 16 on this hardware (R3, R7). -/
abbrev Config.nr : Nat := 16

/-- IN byte `i` after reset number `resets`, until the host writes it (R36, I5; log 6). -/
opaque Config.freeIn (resets i : Nat) : Byte

/-- OUT byte `j` at or beyond OUTLEN after the command or reset number `draws` (R30, R92, R93, I3, I4; log 5). -/
opaque Config.freeOut (draws j : Nat) : Byte

/-- P[i] after a reset (R36, I4; log 7). -/
opaque Config.freeP (draws i : Nat) : Word

/-- S0[i] after a reset (R36, I4; log 7). -/
opaque Config.freeS0 (draws i : Nat) : Word

/-- S1[i] after a reset (R36, I4; log 7). -/
opaque Config.freeS1 (draws i : Nat) : Word

/-- The working register L between commands and after a reset (R28, R36; log 8). -/
opaque Config.freeL (draws : Nat) : Word

/-- The working register R between commands and after a reset (R28, R36; log 8). -/
opaque Config.freeR (draws : Nat) : Word

end Sys2Proof
end

