-- ==== Sys2Proof/Machine/ConstTable.lean ====
section
/-! DEFINITION. The default constant table and the configuration State.reset has (41_key_schedule.md R101,
92_eei_decisions.md "Named open parameters"). -/

namespace Sys2Proof.Machine

/-- R101: the first 20 32-bit words of the binary fraction of π. -/
def piWords : Vector Word 20 :=
  ⟨#[0x243F6A88, 0x85A308D3, 0x13198A2E, 0x03707344, 0xA4093822,
     0x299F31D0, 0x082EFA98, 0xEC4E6C89, 0x452821E6, 0x38D01377,
     0xBE5466CF, 0x34E90C6C, 0xC0AC29B7, 0xC97C50DD, 0x3F84D5B5,
     0xB5470917, 0x9216D5D9, 0x8979FB1B, 0xD1310BA6, 0x98DFB5AC], rfl⟩

/-- The configuration of State.reset: CONST_TABLE by R101, CAP = 64 and BASE = 0.
DESIGN CHOICE (log 2): R7 leaves all three open; every statement over a state is for every configuration. -/
def defaultConfig : Config := { cap := 64, base := 0, constTable := piWords }

end Sys2Proof.Machine
end

