-- ==== Sys2Proof/Machine/State.lean ====
section
/-! DEFINITION. Everything the spec gives the machine (10_state.md R22 to R36), as plain data, with the host's side of the
bus (R20, 70_reset_and_hazards.md R200, R208), and the state right after reset. -/

namespace Sys2Proof.Machine

/-- The CipherState: P, S0 and S1 (R6, R22, R23). -/
structure CipherState where
  /-- P, the permutation array (R22). -/
  p : Vector Word 20
  /-- S0, the first substitution box (R23). -/
  s0 : Vector Word 256
  /-- S1, the second substitution box (R23). -/
  s1 : Vector Word 256
  deriving DecidableEq, Repr

/-- The bytes of a buffer that hold a specified value, by index, indices strictly rising. An unlisted index has no
specified value: reading it gives a free value (`readIn`, `readOut`). -/
abbrev Memory := List Host.Cell

/-- The canonical form: indices strictly rise. What an unlisted index holds here is no value at all, and no cell is equal to
that; so two memories that specify the same bytes are equal data (log 18). -/
abbrev Memory.wf (m : Memory) : Prop := (m.map Prod.fst).Pairwise (· < ·)

/-- Every listed index lies inside a buffer of `cap` bytes. -/
abbrev Memory.within (m : Memory) (cap : Nat) : Prop := ∀ c ∈ m, c.1 < cap

/-- The six error kinds (60_exceptions.md R180). -/
inductive ErrKind where
  | invalidKeyLength
  | invalidLength
  | invalidPadding
  | notKeyed
  | illegalCommand
  | capacityExceeded
  deriving DecidableEq, Repr

/-- What a command function returns (40_commands.md R90). -/
inductive CmdOutcome where
  /-- The output bytes, and the new CipherState of KEYSET. -/
  | ok (out : List Byte) (newCS : Option CipherState)
  | err (e : ErrKind)
  deriving DecidableEq, Repr

/-- The three tables the bootstrap overwrites (R105). -/
inductive Table where
  | p
  | s0
  | s1
  deriving DecidableEq, Repr

/-- The registers of the window (20_memory.md R53). -/
inductive Reg where
  | cmd
  | status
  | inlen
  | outlen
  | capr
  deriving DecidableEq, Repr

/-- A byte of the window's buffers (R53). -/
inductive BufByte where
  | inByte (i : Nat)
  | outByte (j : Nat)
  deriving DecidableEq, Repr

/-- One thing the outside does to the engine. Addresses are bus addresses. -/
inductive HostEvent where
  /-- `MemRead(addr, 4)` (R75). -/
  | lw (addr : Nat)
  /-- `MemWrite(addr, 4, v)` (R75). -/
  | sw (addr : Nat) (v : Word)
  /-- `MemRead(addr, 1)` (R75). -/
  | lb (addr : Nat)
  /-- `MemWrite(addr, 1, v)` (R75). -/
  | sb (addr : Nat) (v : Byte)
  /-- A read whose width is neither 8 nor 32 bits: never one with a meaning (R54, R56). -/
  | otherRead (addr : Nat)
  /-- A write whose width is neither 8 nor 32 bits (R54, R56). -/
  | otherWrite (addr : Nat)
  /-- An instruction fetch (R56). -/
  | fetch (addr : Nat)
  /-- The pseudo-instruction `read n -> o`: OUTLEN, then OUT[0] to OUT[n-1] (R76). -/
  | readOutput
  /-- The reset input is asserted (R200). -/
  | reset
  deriving DecidableEq, Repr

/-- A value one of the host's reads returned (R208). -/
inductive ReadResult where
  | lw (addr : Nat) (v : Word)
  | lb (addr : Nat) (v : Byte)
  deriving DecidableEq, Repr

/-- The state of the engine and of its one host. -/
structure State where
  /-- CAP, BASE and CONST_TABLE: configuration (R7), never changed by a step (log 1). -/
  config : Config
  /-- The bound CipherState (R22, R23, R25). -/
  cipher : CipherState
  /-- KEYED, STATUS bit 8 (R27). -/
  keyed : Bool
  /-- ERR, STATUS bits [2:0] (R32). -/
  err : BitVec 3
  /-- INLEN (R33). -/
  inlen : Word
  /-- OUTLEN (R34). -/
  outlen : Word
  /-- IN: the bytes the host has written since reset, by index (R29). -/
  inBuf : Memory
  /-- OUT: the output bytes of the last command, by index (R30). -/
  outBuf : Memory
  /-- The working register L (R28). -/
  workL : Word
  /-- The working register R (R28). -/
  workR : Word
  /-- The model's own: commands and resets so far; it picks the free values (log 9). -/
  draws : Nat
  /-- The model's own: resets so far; it picks the free values of IN (log 9). -/
  resets : Nat
  /-- The host's accesses and resets still to come, the next one first (R208; log 3). -/
  pending : List HostEvent
  /-- What the host's reads returned, oldest first (R208; log 3). -/
  reads : List ReadResult
  deriving DecidableEq, Repr

/-- Why the machine stops with a fault: it never does. An error completes its command (R188), and no internal access can
fault (R63). -/
inductive Fault where
  deriving DecidableEq, Repr

/-- Why an event has no meaning. -/
inductive Refusal where
  /-- Raised by exec for an instruction without a meaning; here none is. Safe. -/
  | notModelled (mnemonic : String)
  /-- Raised by step for a register access that is not 32 bits or a buffer access that is not 8 bits (R56, I8). Safe. -/
  | accessWidth
  /-- Raised by step for a 32-bit access among the registers that is not aligned (R56, I8). Safe. -/
  | misaligned
  /-- Raised by step for an access to a reserved offset (R53, R56, I8). Safe. -/
  | reservedOffset
  /-- Raised by step for an instruction fetch from the window (R56). Safe. -/
  | windowFetch
  /-- Raised by step for an access outside the engine's window (R53; log 10). Safe. -/
  | outsideWindow
  deriving DecidableEq, Repr

/-- P, S0 and S1 after a reset: no value is specified (R36, I4; log 7). It is irreducible so that no proof looks into it. -/
@[irreducible] def CipherState.unspecified (draws : Nat) : CipherState where
  p := Vector.ofFn fun i => Config.freeP draws i
  s0 := Vector.ofFn fun i => Config.freeS0 draws i
  s1 := Vector.ofFn fun i => Config.freeS1 draws i

/-- The machine right after a reset (R36, R200), for either way a reset comes: the spec's values, and free values where it
says unspecified. -/
def State.atReset (config : Config) (draws resets : Nat) (pending : List HostEvent) (reads : List ReadResult) : State where
  config := config
  cipher := .unspecified draws
  keyed := false
  err := 0
  inlen := 0
  outlen := 0
  inBuf := []
  outBuf := []
  workL := Config.freeL draws
  workR := Config.freeR draws
  draws := draws
  resets := resets
  pending := pending
  reads := reads

/-- The machine after power-on reset, with no host program placed (R36, R200, R201; log 2, log 3, log 9). -/
def State.reset : State := .atReset defaultConfig 0 0 [] []

end Sys2Proof.Machine
end

