-- ==== Sys2Proof/Machine/Flags.lean ====
section
/-! DEFINITION. The STATUS register: the error codes and the word a read returns (10_state.md R32, 60_exceptions.md R180).
The datapath has no carry, overflow or other arithmetic flag (42_round_function.md R120). -/

namespace Sys2Proof.Machine

/-- R180: the code of each error kind in STATUS.ERR. -/
def ErrKind.code : ErrKind → BitVec 3
  | .invalidKeyLength => 1
  | .invalidLength => 2
  | .invalidPadding => 3
  | .notKeyed => 4
  | .illegalCommand => 5
  | .capacityExceeded => 6

/-- R32: STATUS is ERR in [2:0], KEYED in bit 8, zeros elsewhere. -/
def statusWord (s : State) : Word := 0#23 ++ BitVec.ofBool s.keyed ++ 0#5 ++ s.err

end Sys2Proof.Machine
end

