-- ==== Sys2Proof/Machine/Ops.lean ====
section
/-! DEFINITION. The shared operations: bytes of a word (00_scope.md R10), buffers (10_state.md R29, R30), completing a
command with its output or with an error (40_commands.md R92, R93), and reset (70_reset_and_hazards.md R200). -/

namespace Sys2Proof.Machine

/-! ### Bytes and words, big-endian (R10, R50) -/

/-- Bits [31:24] (R10). -/
def byte3 (x : Word) : Byte := x.extractLsb' 24 8

/-- Bits [23:16] (R10). -/
def byte2 (x : Word) : Byte := x.extractLsb' 16 8

/-- Bits [15:8] (R10). -/
def byte1 (x : Word) : Byte := x.extractLsb' 8 8

/-- Bits [7:0] (R10). -/
def byte0 (x : Word) : Byte := x.extractLsb' 0 8

/-- R10: four bytes packed big-endian, the first most significant. -/
def be32 (b0 b1 b2 b3 : Byte) : Word := b0 ++ b1 ++ b2 ++ b3

/-- R10: the bytes of a word, most significant first. -/
def bytesBe (x : Word) : List Byte := [byte3 x, byte2 x, byte1 x, byte0 x]

/-! ### Buffers -/

/-- The specified value at an index, if there is one. -/
def Memory.read : Memory → Nat → Option Byte
  | [], _ => none
  | (k, b) :: m, a => if a = k then some b else Memory.read m a

/-- Specify the value at an index; the canonical form is kept. -/
def Memory.write : Memory → Nat → Byte → Memory
  | [], a, v => [(a, v)]
  | (k, b) :: m, a, v =>
    if a < k then (a, v) :: (k, b) :: m
    else if a = k then (a, v) :: m
    else (k, b) :: Memory.write m a v

/-- The buffer that holds the given bytes from an index on, and nothing else. -/
def Memory.ofBytesFrom : Nat → List Byte → Memory
  | _, [] => []
  | a, b :: bs => (a, b) :: Memory.ofBytesFrom (a + 1) bs

/-- IN[i] (R29): what the host wrote there since reset, else a free value (R36, I5; log 6). -/
def readIn (s : State) (i : Nat) : Byte := (Memory.read s.inBuf i).getD (Config.freeIn s.resets i)

/-- `IN[i] <- v` (R55). -/
def writeIn (s : State) (i : Nat) (v : Byte) : State := { s with inBuf := Memory.write s.inBuf i v }

/-- OUT[j] (R30): the last command's output below OUTLEN, else a free value (I3; log 5). -/
def readOut (s : State) (j : Nat) : Byte := (Memory.read s.outBuf j).getD (Config.freeOut s.draws j)

/-! ### Completing a command (R92, R93) -/

/-- R92: completion with success. The output is OUT[0..OUTLEN-1]; the other OUT bytes are drawn anew; KEYSET's new
CipherState replaces the bound one and sets KEYED. L and R are left with no specified value (R28). -/
def completeOk (s : State) (out : List Byte) (newCS : Option CipherState) : State :=
  { s with
    err := 0
    outlen := BitVec.ofNat 32 out.length
    outBuf := Memory.ofBytesFrom 0 out
    cipher := newCS.getD s.cipher
    keyed := newCS.isSome || s.keyed
    workL := Config.freeL (s.draws + 1)
    workR := Config.freeR (s.draws + 1)
    draws := s.draws + 1 }

/-- R93, R188: taking an error. ERR is its code, OUTLEN is 0, every OUT byte is drawn anew; the CipherState, KEYED, INLEN
and IN stay. Nothing saves state and control goes nowhere; there is no return from an error (R189). -/
def completeErr (s : State) (e : ErrKind) : State :=
  { s with
    err := e.code
    outlen := 0
    outBuf := []
    workL := Config.freeL (s.draws + 1)
    workR := Config.freeR (s.draws + 1)
    draws := s.draws + 1 }

/-- R90: complete a command with its outcome. -/
def complete (s : State) : CmdOutcome → State
  | .ok out newCS => completeOk s out newCS
  | .err e => completeErr s e

/-! ### Reset and the host's side -/

/-- R200: reset puts every piece of the engine's state to R36's values. Configuration is not state, and the host keeps its
program and what its reads returned (log 12). -/
def resetEngine (s : State) : State :=
  .atReset s.config (s.draws + 1) (s.resets + 1) s.pending s.reads

/-- Keep a value a read returned, for the observation of R208. -/
def recordRead (s : State) (r : ReadResult) : State := { s with reads := s.reads ++ [r] }

end Sys2Proof.Machine
end

