-- ==== Sys2Proof/Machine/Cipher.lean ====
section
/-! DEFINITION. The round function and the block transforms (42_round_function.md R120 to R126). -/

namespace Sys2Proof.Machine

/-- A substitution box at a byte (R23, R121). -/
def sbox (t : Vector Word 256) (b : Byte) : Word := t[b.toNat]'b.isLt

/-- P[i] (R22). The index is always below 20 (R63). -/
def subkey (cs : CipherState) (i : Nat) : Word := cs.p[i]?.getD 0

/-- R121: F, the keyed function of one Feistel round. -/
def roundF (cs : CipherState) (x : Word) : Word :=
  ((sbox cs.s0 (byte3 x) + sbox cs.s1 (byte2 x)) ^^^ sbox cs.s0 (byte1 x)) + sbox cs.s1 (byte0 x)

/-- The even numbers 0, 2, ... below `n`: the values of R123's and R105's loop indices. -/
def evensBelow (n : Nat) : List Nat := (List.range (n / 2)).map (2 * ·)

/-- R123: one iteration of the encryption loop. -/
def encryptIteration (cs : CipherState) (b : Block) (r : Nat) : Block :=
  let l := b.1 ^^^ subkey cs r
  let r1 := b.2 ^^^ roundF cs l
  let r2 := r1 ^^^ subkey cs (r + 1)
  (l ^^^ roundF cs r2, r2)

/-- R125: one iteration of the decryption loop. -/
def decryptIteration (cs : CipherState) (b : Block) (r : Nat) : Block :=
  let l := b.1 ^^^ roundF cs b.2
  let r1 := b.2 ^^^ subkey cs (r + 1)
  let r2 := r1 ^^^ roundF cs l
  (l ^^^ subkey cs r, r2)

/-- R123 with `nr` Feistel rounds: the loop, the final mixing with P[18] and P[19], the swap (R124). -/
def encryptBlockNr (nr : Nat) (cs : CipherState) (b : Block) : Block :=
  let m := (evensBelow nr).foldl (encryptIteration cs) b
  (m.2 ^^^ subkey cs 19, m.1 ^^^ subkey cs 18)

/-- R125 with `nr` Feistel rounds. -/
def decryptBlockNr (nr : Nat) (cs : CipherState) (b : Block) : Block :=
  (evensBelow nr).reverse.foldl (decryptIteration cs) (b.2 ^^^ subkey cs 18, b.1 ^^^ subkey cs 19)

/-- encryptBlock of this hardware: NR = 16 (R3, R122). -/
def encryptBlock (cs : CipherState) (b : Block) : Block := encryptBlockNr Config.nr cs b

/-- decryptBlock of this hardware (R125). -/
def decryptBlock (cs : CipherState) (b : Block) : Block := decryptBlockNr Config.nr cs b

end Sys2Proof.Machine
end

