-- ==== Sys2Proof/Machine/KeySchedule.lean ====
section
/-! DEFINITION. The key schedule (41_key_schedule.md R100 to R107). -/

namespace Sys2Proof.Machine

/-- C[i mod 20]: cyclic indexing into the constant table (R102). -/
def cyclicConst (tbl : Vector Word 20) (i : Nat) : Word := tbl.get ⟨i % 20, Nat.mod_lt i (by decide)⟩

/-- R102: P is C, and S0, S1 continue the cycle of C. -/
def seedTables (tbl : Vector Word 20) : CipherState where
  p := Vector.ofFn fun i => cyclicConst tbl i
  s0 := Vector.ofFn fun i => cyclicConst tbl i
  s1 := Vector.ofFn fun i => cyclicConst tbl (256 + i)

/-- R103: key word `j`, of four, packed big-endian. -/
def keyWord (k : Vector Byte 16) (j : Fin 4) : Word :=
  be32 k[4 * j.val] k[4 * j.val + 1] k[4 * j.val + 2] k[4 * j.val + 3]

/-- R104: the key words go cyclically into P; S0 and S1 are not touched. -/
def mixKey (cs : CipherState) (k : Vector Byte 16) : CipherState :=
  { cs with p := Vector.ofFn fun i => cs.p[i] ^^^ keyWord k ⟨i.val % 4, Nat.mod_lt _ (by decide)⟩ }

/-- Write a pair over the words `i` and `i + 1`. -/
def setPair {n : Nat} (v : Vector Word n) (i : Nat) (b : Block) : Vector Word n :=
  (v.setIfInBounds i b.1).setIfInBounds (i + 1) b.2

/-- Write a pair over two words of one table (R105). -/
def storePair (cs : CipherState) (t : Table) (i : Nat) (b : Block) : CipherState :=
  match t with
  | .p => { cs with p := setPair cs.p i b }
  | .s0 => { cs with s0 := setPair cs.s0 i b }
  | .s1 => { cs with s1 := setPair cs.s1 i b }

/-- R105: one bootstrap iteration. The running block is encrypted on the tables as they are now, and only then are the two
words written (R106). -/
def bootstrapIteration (t : Table) (st : CipherState × Block) (i : Nat) : CipherState × Block :=
  let out := encryptBlock st.1 st.2
  (storePair st.1 t i out, out)

/-- R105: the loop over one table of `n` words. -/
def bootstrapTable (t : Table) (n : Nat) (st : CipherState × Block) : CipherState × Block :=
  (evensBelow n).foldl (bootstrapIteration t) st

/-- R105, R106: from the zero block, all of P, then all of S0, then all of S1. -/
def bootstrap (cs : CipherState) : CipherState :=
  (bootstrapTable .s1 256 (bootstrapTable .s0 256 (bootstrapTable .p 20 (cs, (0, 0))))).1

/-- R100: the CipherState of a key. It depends on the key and the constant table alone. -/
def keySchedule (tbl : Vector Word 20) (k : Vector Byte 16) : CipherState :=
  bootstrap (mixKey (seedTables tbl) k)

end Sys2Proof.Machine
end

