-- ==== Sys2Proof/Machine/Operands.lean ====
section
/-! DEFINITION. The implicit operands of the commands (30_encoding.md R71): the input bytes and the key. -/

namespace Sys2Proof.Machine

/-- IN[0..INLEN-1], the data of ENCRYPT and DECRYPT (R71, R143, R145). -/
def inputBytes (s : State) : List Byte := (List.range s.inlen.toNat).map (readIn s)

/-- IN[0..15], the key of KEYSET (R71, R108). -/
def keyBytes (s : State) : Vector Byte 16 := Vector.ofFn fun i => readIn s i

end Sys2Proof.Machine
end

