-- ==== Sys2Proof/Machine/Padding.lean ====
section
/-! DEFINITION. The padding scheme (44_padding.md R160 to R164). -/

namespace Sys2Proof.Machine

/-- N of R160: the number of pad bytes for data of length `n`, 1 to 8. -/
def padLength (n : Nat) : Nat := 8 - n % 8

/-- R160: append N copies of the byte N. -/
def pad (data : List Byte) : List Byte :=
  data ++ List.replicate (padLength data.length) (BitVec.ofNat 8 (padLength data.length))

/-- R162, R163: check the pad strictly and strip it; `none` is InvalidPadding. -/
def unpad (data : List Byte) : Option (List Byte) :=
  match data.getLast? with
  | none => none
  | some last =>
    let n := last.toNat
    if n = 0 ∨ 8 < n then none
    else if data.length < n then none
    else if (data.drop (data.length - n)).all (· == last) then some (data.take (data.length - n))
    else none

end Sys2Proof.Machine
end

