-- ==== Sys2Proof/Machine/Stream.lean ====
section
/-! DEFINITION. The stream codec (43_stream_codec.md R140 to R144). -/

namespace Sys2Proof.Machine

/-- R141: a block as 8 bytes, big-endian. -/
def packBlock (b : Block) : List Byte := bytesBe b.1 ++ bytesBe b.2

/-- R140: each 8-byte chunk, in order, unpacked (R141), transformed alone and packed. Bytes after the last whole chunk give
nothing; both streams pass a multiple of 8. -/
def mapBlocks (f : Block → Block) : List Byte → List Byte
  | c0 :: c1 :: c2 :: c3 :: c4 :: c5 :: c6 :: c7 :: rest =>
    packBlock (f (be32 c0 c1 c2 c3, be32 c4 c5 c6 c7)) ++ mapBlocks f rest
  | _ => []

/-- R142. -/
def encryptStream (cs : CipherState) (data : List Byte) : List Byte :=
  mapBlocks (encryptBlock cs) (pad data)

/-- R144: a length that is zero or no multiple of 8 is InvalidLength, a malformed pad InvalidPadding. -/
def decryptStream (cs : CipherState) (data : List Byte) : Except ErrKind (List Byte) :=
  if data.length = 0 ∨ data.length % 8 ≠ 0 then .error .invalidLength
  else
    match unpad (mapBlocks (decryptBlock cs) data) with
    | none => .error .invalidPadding
    | some plain => .ok plain

end Sys2Proof.Machine
end

