-- ==== Sys2Proof/Machine/Commands.lean ====
section
/-! DEFINITION. The meanings of the commands (41_key_schedule.md R108, 43_stream_codec.md R143, R145, 60_exceptions.md
R186): each reads the state as it stands at the CMD write, makes its checks in R187's order, and completes (40_commands.md
R90 to R93). -/

namespace Sys2Proof.Machine

/-- R108: the outcome of KEYSET. -/
def keysetCmd (s : State) : CmdOutcome :=
  if s.inlen ≠ 16 then .err .invalidKeyLength
  else .ok [] (some (keySchedule s.config.constTable (keyBytes s)))

/-- R143: the outcome of ENCRYPT. -/
def encryptCmd (s : State) : CmdOutcome :=
  if s.keyed = false then .err .notKeyed
  else if s.config.cap - 8 < s.inlen.toNat then .err .capacityExceeded
  else .ok (encryptStream s.cipher (inputBytes s)) none

/-- R145: the outcome of DECRYPT. -/
def decryptCmd (s : State) : CmdOutcome :=
  if s.keyed = false then .err .notKeyed
  else if s.config.cap < s.inlen.toNat then .err .capacityExceeded
  else
    match decryptStream s.cipher (inputBytes s) with
    | .error e => .err e
    | .ok plain => .ok plain none

/-- KEYSET (R108). -/
def execKeyset (s : State) : Host.Outcome State Fault Refusal := .next (complete s (keysetCmd s))

/-- ENCRYPT (R143). -/
def execEncrypt (s : State) : Host.Outcome State Fault Refusal := .next (complete s (encryptCmd s))

/-- DECRYPT (R145). -/
def execDecrypt (s : State) : Host.Outcome State Fault Refusal := .next (complete s (decryptCmd s))

/-- Any other word (R73, R186): IllegalCommand, whatever its fields. -/
def execIllegal (s : State) : Host.Outcome State Fault Refusal := .next (complete s (.err .illegalCommand))

end Sys2Proof.Machine
end

