-- ==== Sys2Proof/Machine/Bus.lean ====
section
/-! DEFINITION. The host window: its map and the effect of each access (20_memory.md R53 to R58). -/

namespace Sys2Proof.Machine

/-! ### The map (R53) -/

/-- Offset of IN in the window. -/
abbrev inOffset : Nat := 0x10000

/-- Offset of OUT in the window. -/
abbrev outOffset : Nat := 0x20000

/-- Size of the window in bytes, 2^18. -/
abbrev windowSize : Nat := 0x40000

/-- The end of the register block: no register lies at or beyond this offset. -/
abbrev registersEnd : Nat := 0x00014

/-- Offset of a register. -/
def Reg.offset : Reg → Nat
  | .cmd => 0x00000
  | .status => 0x00004
  | .inlen => 0x00008
  | .outlen => 0x0000C
  | .capr => 0x00010

/-- The register at an offset, if one starts there. -/
def regAt (off : Nat) : Option Reg :=
  [Reg.cmd, .status, .inlen, .outlen, .capr].find? fun r => r.offset == off

/-- The buffer byte at an offset, if there is one. -/
def bufByteAt (c : Config) (off : Nat) : Option BufByte :=
  if inOffset ≤ off ∧ off < inOffset + c.cap then some (.inByte (off - inOffset))
  else if outOffset ≤ off ∧ off < outOffset + c.cap then some (.outByte (off - outOffset))
  else none

/-- The offset of a bus address, if it lies in the window. -/
def windowOffset (c : Config) (addr : Nat) : Option Nat :=
  if c.base ≤ addr ∧ addr < c.base + windowSize then some (addr - c.base) else none

/-! ### Which accesses have a meaning (R54) and why the others are refused (R56; log 11) -/

/-- The register a 32-bit access reaches. -/
def regTarget (c : Config) (addr : Nat) : Except Refusal Reg :=
  match windowOffset c addr with
  | none => .error .outsideWindow
  | some off =>
    match regAt off with
    | some r => .ok r
    | none =>
      if off < registersEnd then .error .misaligned
      else if (bufByteAt c off).isSome then .error .accessWidth
      else .error .reservedOffset

/-- The buffer byte an 8-bit access reaches. -/
def byteTarget (c : Config) (addr : Nat) : Except Refusal BufByte :=
  match windowOffset c addr with
  | none => .error .outsideWindow
  | some off =>
    match bufByteAt c off with
    | some b => .ok b
    | none => if off < registersEnd then .error .accessWidth else .error .reservedOffset

/-- Why an access of another width is refused. -/
def otherWidthRefusal (c : Config) (addr : Nat) : Refusal :=
  match windowOffset c addr with
  | none => .outsideWindow
  | some off => if off < registersEnd ∨ (bufByteAt c off).isSome then .accessWidth else .reservedOffset

/-- Why an instruction fetch is refused. -/
def fetchRefusal (c : Config) (addr : Nat) : Refusal :=
  match windowOffset c addr with
  | none => .outsideWindow
  | some _ => .windowFetch

/-! ### Effects (R55) -/

/-- What a read of a register returns (R31 to R35). -/
def readReg (s : State) : Reg → Word
  | .cmd => 0
  | .status => statusWord s
  | .inlen => s.inlen
  | .outlen => s.outlen
  | .capr => BitVec.ofNat 32 s.config.cap

/-- A write of a register: CMD runs the command its word encodes, INLEN takes the value, the others ignore it. -/
def writeReg (s : State) (r : Reg) (v : Word) : Host.Outcome State Fault Refusal :=
  match r with
  | .cmd => exec (decode v) s
  | .status => .next s
  | .inlen => .next { s with inlen := v }
  | .outlen => .next s
  | .capr => .next s

/-- What a read of a buffer byte returns. -/
def readBufByte (s : State) : BufByte → Byte
  | .inByte i => readIn s i
  | .outByte j => readOut s j

/-- A write of a buffer byte: OUT ignores it. -/
def writeBufByte (s : State) (b : BufByte) (v : Byte) : State :=
  match b with
  | .inByte i => writeIn s i v
  | .outByte _ => s

/-- R76: `read n -> o` is `lw OUTLEN`, then `lb OUT+j` for j = 0 to n - 1 with the n it read (log 13). -/
def readOutputExpansion (s : State) : List HostEvent :=
  HostEvent.lw (s.config.base + Reg.offset .outlen) ::
    (List.range s.outlen.toNat).map fun j => HostEvent.lb (s.config.base + outOffset + j)

/-- One event of the outside, to its end (R20, R57). -/
def serve (e : HostEvent) (s : State) : Host.Outcome State Fault Refusal :=
  match e with
  | .lw addr =>
    match regTarget s.config addr with
    | .ok r => .next (recordRead s (.lw addr (readReg s r)))
    | .error e => .refused e
  | .sw addr v =>
    match regTarget s.config addr with
    | .ok r => writeReg s r v
    | .error e => .refused e
  | .lb addr =>
    match byteTarget s.config addr with
    | .ok b => .next (recordRead s (.lb addr (readBufByte s b)))
    | .error e => .refused e
  | .sb addr v =>
    match byteTarget s.config addr with
    | .ok b => .next (writeBufByte s b v)
    | .error e => .refused e
  | .otherRead addr => .refused (otherWidthRefusal s.config addr)
  | .otherWrite addr => .refused (otherWidthRefusal s.config addr)
  | .fetch addr => .refused (fetchRefusal s.config addr)
  | .readOutput => .next { s with pending := readOutputExpansion s ++ s.pending }
  | .reset => .next (resetEngine s)

/-- What the engine does when the host has nothing more to issue: it waits (R201; log 3). -/
def waitForHost (s : State) : Host.Outcome State Fault Refusal := .next s

/-- The event that issues a command word (R31, R55). -/
def commandEvent (c : Config) (v : Word) : HostEvent := .sw (c.base + Reg.offset .cmd) v

end Sys2Proof.Machine
end

