-- ==== Sys2Proof/Machine/Step.lean ====
section
/-! DEFINITION. One step: the next event of the outside, in the order the host issues them (20_memory.md R58). -/

namespace Sys2Proof.Machine

/-- The engine serves the host's next access, or a reset, to its end; with none left it waits (R20, R58, R201). -/
def step (s : State) : Host.Outcome State Fault Refusal :=
  match s.pending with
  | [] => waitForHost s
  | e :: rest => serve e { s with pending := rest }

/-- The host's next access becomes a write of the command word to CMD, which is how a command reaches this engine (log 4).
Every command is one 32-bit word (R70). -/
def State.withFetchWord (s : State) (_nbits w : Nat) : State :=
  { s with pending := commandEvent s.config (BitVec.ofNat 32 w) :: s.pending }

end Sys2Proof.Machine
end

