-- ==== Sys2Proof/Machine/HostProgram.lean ====
section
/-! DEFINITION. Host programs: the access syntax and the pseudo-instructions with their expansions (30_encoding.md R75, R76),
and what the host observes when its program has ended (10_state.md R37, 70_reset_and_hazards.md R208). -/

namespace Sys2Proof.Machine

/-- `keyset` (R76). -/
def hostKeyset (c : Config) : List HostEvent := [commandEvent c (encode .keyset)]

/-- `encrypt` (R76). -/
def hostEncrypt (c : Config) : List HostEvent := [commandEvent c (encode .encrypt)]

/-- `decrypt` (R76). -/
def hostDecrypt (c : Config) : List HostEvent := [commandEvent c (encode .decrypt)]

/-- `load b0 ... b(n-1)`: the bytes into IN, then n into INLEN (R76). R76 gives this expansion for n <= CAP only.
DESIGN CHOICE (log 19): a longer list is expanded in the same way, whatever its accesses past IN[CAP-1] then meet. -/
def hostLoad (c : Config) (bytes : List Byte) : List HostEvent :=
  (List.range bytes.length).map (fun i => HostEvent.sb (c.base + inOffset + i) (bytes.getD i 0)) ++
    [HostEvent.sw (c.base + Reg.offset .inlen) (BitVec.ofNat 32 bytes.length)]

/-- `status -> s` (R76). -/
def hostStatus (c : Config) : List HostEvent := [.lw (c.base + Reg.offset .status)]

/-- `read n -> o` (R76). -/
def hostRead : List HostEvent := [.readOutput]

/-- OUT[0..OUTLEN-1], the output of the last command (R30). -/
def outputBytes (s : State) : List Byte := (List.range s.outlen.toNat).map (readOut s)

/-- The observation of R208. -/
structure Observation where
  status : Word
  inlen : Word
  outlen : Word
  /-- OUT[0..OUTLEN-1]. -/
  out : List Byte
  /-- IN[0..CAP-1]. -/
  inBytes : List Byte
  reads : List ReadResult
  deriving DecidableEq, Repr

/-- What R208 lets the host observe of a state; P, S0, S1, L, R and the OUT bytes beyond OUTLEN are no part of it. -/
def observe (s : State) : Observation where
  status := statusWord s
  inlen := s.inlen
  outlen := s.outlen
  out := outputBytes s
  inBytes := (List.range s.config.cap).map (readIn s)
  reads := s.reads

end Sys2Proof.Machine
end

