-- ==== Sys2Proof/Safety.lean ====
section
/-! DEFINITION. What holds of the machine between any two events, the legal states (10_state.md R22 to R36), and how a
command may end (40_commands.md R92, R93). -/

namespace Sys2Proof.Machine

/-- The legal states: what reset establishes and every event keeps. -/
structure State.Inv (s : State) : Prop where
  /-- R7's limits on the parameters. -/
  config_wf : s.config.wf
  /-- IN is in canonical form. -/
  in_wf : Memory.wf s.inBuf
  /-- IN has CAP bytes (R29). -/
  in_within : Memory.within s.inBuf s.config.cap
  /-- OUT specifies exactly OUT[0..OUTLEN-1] (R30). -/
  out_listed : s.outBuf.map Prod.fst = List.range s.outlen.toNat
  /-- OUTLEN's legal values are 0 to CAP (R34). -/
  outlen_le : s.outlen.toNat ≤ s.config.cap
  /-- ERR = 7 is never produced (R32, I7). -/
  err_legal : s.err ≠ 7
  /-- An error leaves no output (R93). -/
  err_outlen : s.err ≠ 0 → s.outlen = 0
  /-- KEYED is 1 only when the engine holds a CipherState a key schedule built (R25, R27). -/
  keyed_bound : s.keyed = true → ∃ k, s.cipher = keySchedule s.config.constTable k

/-- OUT[j] has no specified value: reading it gives a free value (R30, I3). -/
def OutUnspecified (s : State) (j : Nat) : Prop := Memory.read s.outBuf j = none

/-- IN[i] has no specified value: the host has not written it since reset (R36, I5). -/
def InUnspecified (s : State) (i : Nat) : Prop := Memory.read s.inBuf i = none

/-- What no command writes: the parameters (CAPR among them), INLEN, every byte of IN (R94), and the host's own side. -/
structure CommandKeeps (s t : State) : Prop where
  config : t.config = s.config
  inlen : t.inlen = s.inlen
  in_bytes : ∀ i, readIn t i = readIn s i
  pending : t.pending = s.pending
  reads : t.reads = s.reads

/-- The binding stays: the CipherState and KEYED (R25, R93). -/
structure BindingKept (s t : State) : Prop where
  cipher : t.cipher = s.cipher
  keyed : t.keyed = s.keyed

/-- A command ends with success and the output bytes `out` (R92). The binding is said apart. -/
structure SucceedsWith (s t : State) (out : List Byte) : Prop where
  err : t.err = 0
  outlen : t.outlen.toNat = out.length
  out_bytes : outputBytes t = out
  out_rest : ∀ j, out.length ≤ j → OutUnspecified t j
  keeps : CommandKeeps s t

/-- A command ends with the error whose code is `code` (R93). -/
structure FailsWith (s t : State) (code : BitVec 3) : Prop where
  err : t.err = code
  outlen : t.outlen = 0
  out_rest : ∀ j, OutUnspecified t j
  keeps : CommandKeeps s t
  binding : BindingKept s t

end Sys2Proof.Machine
end

