-- ==== Sys2Proof/Certificates/Slice0/Obligations.lean ====
section
/-! DEFINITION. The statements about the machine, for the provers. Each docstring names the rule of spec/ it formalises.
A statement over a state is for every configuration (CONST_TABLE, CAP, BASE) that its premises admit. No statement rests on
the value of a free value or of a counter that picks one. -/

open Sys2Proof Sys2Proof.Machine

/-! ### Decoding and encoding (30_encoding.md) -/

/-- Command words written out bit by bit (R70, R72, R73; 95_test_vectors.md T-ENC-1 to T-ENC-10). -/
def Obligations.DecodeOfWrittenWords : Prop :=
  decode 0b00000000000000000000000000000001 = .keyset ∧
  decode 0b00000000000000000000000000000010 = .encrypt ∧
  decode 0b00000000000000000000000000000011 = .decrypt ∧
  decode 0x00000000 = .illegal 0x0 0x0000000 ∧
  decode 0x00000004 = .illegal 0x4 0x0000000 ∧
  decode 0x0000000F = .illegal 0xF 0x0000000 ∧
  decode 0x00000012 = .illegal 0x2 0x0000001 ∧
  decode 0x10000002 = .illegal 0x2 0x1000000 ∧
  decode 0x80000001 = .illegal 0x1 0x8000000 ∧
  decode 0xFFFFFFFF = .illegal 0xF 0xFFFFFFF

/-- R72, R73, R74: exactly one word selects each command, and every other word is illegal. -/
def Obligations.ExactlyThreeWordsSelectACommand : Prop :=
  ∀ w : Word,
    (decode w = .keyset ↔ w = 1) ∧
    (decode w = .encrypt ↔ w = 2) ∧
    (decode w = .decrypt ↔ w = 3) ∧
    ((∃ op mbz, decode w = .illegal op mbz) ↔ w ≠ 1 ∧ w ≠ 2 ∧ w ≠ 3)

/-- Decode and encode agree both ways: every well-formed instruction is the decoding of its word, and every one of the 2^32
words is the word of the well-formed instruction it decodes to (R70 to R74). -/
def Obligations.DecodeAndEncodeAreInverse : Prop :=
  (∀ i : Instr, i.wf = true → decode (encode i) = i) ∧
  (∀ w : Word, (decode w).wf = true ∧ encode (decode w) = w)

/-- R31, R90: a 32-bit write of a word to CMD runs, in one step, exactly the command the word encodes, on the state as it
stands at the write. The step takes the access off the host's program and adds nothing else. -/
def Obligations.CommandWriteRunsDecodedCommand : Prop :=
  ∀ (s : State) (v : Word) (rest : List HostEvent),
    s.pending = .sw (s.config.base + 0x00000) v :: rest →
    step s = exec (decode v) { s with pending := rest }

/-! ### Bytes and words (00_scope.md R10, 43_stream_codec.md R141) -/

/-- R10, R141: packing is big-endian, and bytes and words convert back and forth. -/
def Obligations.BytesAndWordsAreBigEndian : Prop :=
  (∀ b0 b1 b2 b3 : Byte,
    (be32 b0 b1 b2 b3).toNat = b0.toNat * 2 ^ 24 + b1.toNat * 2 ^ 16 + b2.toNat * 2 ^ 8 + b3.toNat ∧
    bytesBe (be32 b0 b1 b2 b3) = [b0, b1, b2, b3]) ∧
  (∀ x : Word, bytesBe x = [byte3 x, byte2 x, byte1 x, byte0 x] ∧ be32 (byte3 x) (byte2 x) (byte1 x) (byte0 x) = x) ∧
  (∀ l r : Word, packBlock (l, r) = bytesBe l ++ bytesBe r)

/-! ### The round function and the block transforms (42_round_function.md) -/

/-- R51, R121: F splits x most significant byte first, S0 at the 1st and 3rd bytes, S1 at the 2nd and 4th; add, exclusive-or,
add. The corner cases of R121 and its worked example. -/
def Obligations.RoundFunctionOnBytes : Prop :=
  (∀ (cs : CipherState) (x : Word) (a b c d : Fin 256),
    x.toNat = a.val * 2 ^ 24 + b.val * 2 ^ 16 + c.val * 2 ^ 8 + d.val →
    roundF cs x = ((cs.s0[a] + cs.s1[b]) ^^^ cs.s0[c]) + cs.s1[d]) ∧
  (∀ (cs : CipherState) (x : Word), (∀ i : Fin 256, cs.s0[i] = 0 ∧ cs.s1[i] = 0) → roundF cs x = 0) ∧
  (∀ (cs : CipherState) (x : Word), (∀ i : Fin 256, cs.s0[i] = 0xFFFFFFFF ∧ cs.s1[i] = 1) → roundF cs x = 0) ∧
  (∀ cs : CipherState, (∀ i : Fin 256, cs.s0[i] = BitVec.ofNat 32 i.val ∧ cs.s1[i] = BitVec.ofNat 32 (i.val * 2 ^ 8)) →
    roundF cs 0x01020304 = 0x00000602)

/-- R122, R123, R124: `m` iterations of two half-rounds on P[0], P[1], ..., each half-round on the half just written, then
the final mixing with P[18] and P[19], then the swap; `m` = 8 is this hardware's encryptBlock (NR = 16), and NR changes
nothing but the number of iterations. `l i`, `r i` are the halves after `i` iterations. -/
def Obligations.EncryptBlockRunsRoundsThenMixesAndSwaps : Prop :=
  ∀ (cs : CipherState) (l r : Nat → Word) (m : Nat), m ≤ 9 →
    (∀ i : Fin 9, i.val < m →
      r (i.val + 1) = r i.val ^^^ roundF cs (l i.val ^^^ cs.p[2 * i.val]) ^^^ cs.p[2 * i.val + 1] ∧
      l (i.val + 1) = l i.val ^^^ cs.p[2 * i.val] ^^^ roundF cs (r (i.val + 1))) →
    encryptBlockNr (2 * m) cs (l 0, r 0) = (r m ^^^ cs.p[19], l m ^^^ cs.p[18]) ∧
    (m = 8 → encryptBlock cs (l 0, r 0) = (r m ^^^ cs.p[19], l m ^^^ cs.p[18]))

/-- R125: the final exclusive-or and the swap undone first, then the iterations in reverse order with the subkeys applied in
reverse; `m` = 8 is this hardware's decryptBlock. `l i`, `r i` are the halves before iteration `i` of the encryption. The spec
marks this pseudocode as derived from R123 and calls the inverse property R126 the normative content. -/
def Obligations.DecryptBlockRunsRoundsBackwards : Prop :=
  ∀ (cs : CipherState) (x y : Word) (l r : Nat → Word) (m : Nat), m ≤ 9 →
    l m = y ^^^ cs.p[18] → r m = x ^^^ cs.p[19] →
    (∀ i : Fin 9, i.val < m →
      r i.val = r (i.val + 1) ^^^ cs.p[2 * i.val + 1] ^^^ roundF cs (l (i.val + 1) ^^^ roundF cs (r (i.val + 1))) ∧
      l i.val = l (i.val + 1) ^^^ roundF cs (r (i.val + 1)) ^^^ cs.p[2 * i.val]) →
    decryptBlockNr (2 * m) cs (x, y) = (l 0, r 0) ∧ (m = 8 → decryptBlock cs (x, y) = (l 0, r 0))

/-- R126: the block transforms are inverse to each other, both ways, for every CipherState and every round count. For round
counts beyond R7's (odd ones and those above 18, where a subkey index beyond P reads 0) it rests on log 16. -/
def Obligations.BlockTransformsAreInverse : Prop :=
  ∀ (nr : Nat) (cs : CipherState) (b : Block),
    decryptBlockNr nr cs (encryptBlockNr nr cs b) = b ∧ encryptBlockNr nr cs (decryptBlockNr nr cs b) = b

/-- R22, R122: no block transform reads P[16] or P[17]. -/
def Obligations.BlockTransformsIgnoreUnusedSubkeys : Prop :=
  ∀ (cs : CipherState) (w16 w17 : Word) (b : Block),
    let cs' := { cs with p := (cs.p.set 16 w16).set 17 w17 }
    encryptBlock cs' b = encryptBlock cs b ∧ decryptBlock cs' b = decryptBlock cs b

/-! ### The key schedule (41_key_schedule.md) -/

/-- R102: P is C, and the two S-boxes continue the cycle of C as one 512-word sequence. -/
def Obligations.SeedingIsCyclic : Prop :=
  ∀ tbl : Vector Word 20,
    (∀ i : Fin 20, (seedTables tbl).p[i] = tbl[i]) ∧
    (∀ (i : Fin 256) (j : Fin 20), j.val = i.val % 20 → (seedTables tbl).s0[i] = tbl[j]) ∧
    (∀ (i : Fin 256) (j : Fin 20), j.val = (256 + i.val) % 20 → (seedTables tbl).s1[i] = tbl[j])

/-- R103: the four key words are the key bytes packed big-endian; the example "ABCDEFGHIJKLMNOP". -/
def Obligations.KeyWordsAreBigEndian : Prop :=
  (∀ (k : Vector Byte 16) (j : Fin 4),
    keyWord k j = be32 k[4 * j.val] k[4 * j.val + 1] k[4 * j.val + 2] k[4 * j.val + 3]) ∧
  (∀ k : Vector Byte 16, (∀ i : Fin 16, k[i] = BitVec.ofNat 8 (0x41 + i.val)) →
    keyWord k 0 = 0x41424344 ∧ keyWord k 1 = 0x45464748 ∧ keyWord k 2 = 0x494A4B4C ∧ keyWord k 3 = 0x4D4E4F50)

/-- R104: key word i mod 4 goes into P[i]; S0 and S1 are not touched. -/
def Obligations.KeyMixingIsCyclic : Prop :=
  ∀ (cs : CipherState) (k : Vector Byte 16),
    (∀ (i : Fin 20) (j : Fin 4), j.val = i.val % 4 → (mixKey cs k).p[i] = cs.p[i] ^^^ keyWord k j) ∧
    (mixKey cs k).s0 = cs.s0 ∧ (mixKey cs k).s1 = cs.s1

/-- R105, R106: the bootstrap is 266 encryptions of a running block that starts at zero. Encryption `n` reads the tables
exactly as the earlier iterations left them, and its output pair then goes over the next two words: of P (10 times), of S0
(128 times), of S1 (128 times), in increasing order, with every other word left as it was. -/
def Obligations.BootstrapIsSequential : Prop :=
  ∀ b : CipherState, ∃ (cs : Nat → CipherState) (blk : Nat → Block),
    cs 0 = b ∧ blk 0 = (0, 0) ∧
    (∀ n, n < 266 → blk (n + 1) = encryptBlock (cs n) (blk n)) ∧
    (∀ n, n < 10 →
      (∀ i : Fin 20, (cs (n + 1)).p[i] =
        if i.val = 2 * n then (blk (n + 1)).1 else if i.val = 2 * n + 1 then (blk (n + 1)).2 else (cs n).p[i]) ∧
      (cs (n + 1)).s0 = (cs n).s0 ∧ (cs (n + 1)).s1 = (cs n).s1) ∧
    (∀ n, n < 128 →
      (∀ i : Fin 256, (cs (10 + n + 1)).s0[i] =
        if i.val = 2 * n then (blk (10 + n + 1)).1 else if i.val = 2 * n + 1 then (blk (10 + n + 1)).2
        else (cs (10 + n)).s0[i]) ∧
      (cs (10 + n + 1)).p = (cs (10 + n)).p ∧ (cs (10 + n + 1)).s1 = (cs (10 + n)).s1) ∧
    (∀ n, n < 128 →
      (∀ i : Fin 256, (cs (138 + n + 1)).s1[i] =
        if i.val = 2 * n then (blk (138 + n + 1)).1 else if i.val = 2 * n + 1 then (blk (138 + n + 1)).2
        else (cs (138 + n)).s1[i]) ∧
      (cs (138 + n + 1)).p = (cs (138 + n)).p ∧ (cs (138 + n + 1)).s0 = (cs (138 + n)).s0) ∧
    bootstrap b = cs 266

/-- R100, R107: the key schedule is seeding, key mixing and the bootstrap, in that order; so at KEYSET it is the same
for two engines with the same key bytes and constant table, whatever CipherState either held and whether or not it was
keyed (R26). -/
def Obligations.KeyScheduleDependsOnKeyAlone : Prop :=
  (∀ (tbl : Vector Word 20) (k : Vector Byte 16), keySchedule tbl k = bootstrap (mixKey (seedTables tbl) k)) ∧
  (∀ s s' t t' : State, s.inlen = 16 → s'.inlen = 16 → s.config.constTable = s'.config.constTable →
    (∀ i, i < 16 → readIn s i = readIn s' i) →
    exec .keyset s = .next t → exec .keyset s' = .next t' → t.cipher = t'.cipher)

/-! ### Padding (44_padding.md) -/

/-- R160, R161: N = 8 - (len mod 8) bytes of value N are appended, N in [1, 8]; the result's length is a positive multiple
of 8. -/
def Obligations.PadAppendsItsLength : Prop :=
  ∀ data : List Byte, ∃ n : Nat,
    1 ≤ n ∧ n ≤ 8 ∧ n = 8 - data.length % 8 ∧
    pad data = data ++ List.replicate n (BitVec.ofNat 8 n) ∧
    (pad data).length = data.length + n ∧ (pad data).length % 8 = 0 ∧ 0 < (pad data).length

/-- R162, R163: unpad fails exactly on an empty list, a last byte N of 0 or above 8, a list shorter than N, or a byte among
the last N that differs from N; else it strips the last N bytes. -/
def Obligations.UnpadIsStrict : Prop :=
  unpad [] = none ∧
  ∀ (init : List Byte) (last : Byte),
    let data := init ++ [last]
    let n := last.toNat
    (unpad data = none ↔
      n = 0 ∨ 8 < n ∨ data.length < n ∨ ∃ j, data.length - n ≤ j ∧ j < data.length ∧ data[j]? ≠ some last) ∧
    (∀ plain, unpad data = some plain → plain = data.take (data.length - n))

/-- R164: unpad inverts pad and succeeds exactly on a pad of 1 to 8 equal bytes; on lists whose length is a positive
multiple of 8, exactly on the outputs of pad; pad is injective. -/
def Obligations.UnpadInvertsPad : Prop :=
  (∀ b : List Byte, unpad (pad b) = some b) ∧
  (∀ data b : List Byte, unpad data = some b ↔
    ∃ n : Nat, 1 ≤ n ∧ n ≤ 8 ∧ data = b ++ List.replicate n (BitVec.ofNat 8 n)) ∧
  (∀ data b : List Byte, 0 < data.length → data.length % 8 = 0 → (unpad data = some b ↔ data = pad b)) ∧
  (∀ b b' : List Byte, pad b = pad b' → b = b')

/-! ### The stream codec (43_stream_codec.md) -/

/-- R140, R142: the padded data is taken in 8-byte chunks, each enciphered alone: chunk q of the output is the packed
encryptBlock of chunk q of the padded data. -/
def Obligations.EncryptStreamIsBlockwise : Prop :=
  ∀ (cs : CipherState) (data : List Byte),
    (encryptStream cs data).length = (pad data).length ∧
    (encryptStream cs data).length = data.length + (8 - data.length % 8) ∧
    ∀ (q : Nat) (b : Block), q < (pad data).length / 8 →
      packBlock b = ((pad data).drop (8 * q)).take 8 →
      ((encryptStream cs data).drop (8 * q)).take 8 = packBlock (encryptBlock cs b)

/-- R144: InvalidLength on a length that is zero or no multiple of 8; otherwise each chunk is deciphered alone and the pad is
stripped, or it is InvalidPadding. -/
def Obligations.DecryptStreamIsBlockwise : Prop :=
  ∀ (cs : CipherState) (data : List Byte),
    ((data.length = 0 ∨ data.length % 8 ≠ 0) → decryptStream cs data = .error .invalidLength) ∧
    (∀ p : List Byte, 0 < data.length → data.length % 8 = 0 → p.length = data.length →
      (∀ (q : Nat) (b : Block), q < data.length / 8 → packBlock b = (data.drop (8 * q)).take 8 →
        (p.drop (8 * q)).take 8 = packBlock (decryptBlock cs b)) →
      (∀ plain, unpad p = some plain → decryptStream cs data = .ok plain) ∧
      (unpad p = none → decryptStream cs data = .error .invalidPadding))

/-- R146: decrypting an encryption gives the data back, for every CipherState and every byte list; the ciphertext's length
is a multiple of 8 and 1 to 8 more than the data's. -/
def Obligations.StreamRoundTrip : Prop :=
  ∀ (cs : CipherState) (data : List Byte),
    decryptStream cs (encryptStream cs data) = .ok data ∧
    (encryptStream cs data).length % 8 = 0 ∧
    data.length < (encryptStream cs data).length ∧ (encryptStream cs data).length ≤ data.length + 8

/-! ### The commands: where they complete, and with what (R92, R108, R143, R145, R186) -/

/-- R108: with INLEN = 16, keyed or not, KEYSET completes: ERR = 0, KEYED = 1, OUTLEN = 0, no OUT byte specified, and the
CipherState is the key schedule of IN[0..15]; everything a command leaves alone is unchanged. L and R are left unspecified
(R28). -/
def Obligations.KeysetBindsTheKey : Prop :=
  ∀ s : State, s.inlen = 16 →
    ∃ (t : State) (k : Vector Byte 16), exec .keyset s = .next t ∧ SucceedsWith s t [] ∧ t.keyed = true ∧
      (∀ i : Fin 16, k[i] = readIn s i.val) ∧ t.cipher = keySchedule s.config.constTable k

/-- R181: KEYSET with any other INLEN is InvalidKeyLength, and it is KEYSET's only error. -/
def Obligations.KeysetRejectsOtherLengths : Prop :=
  (∀ s : State, s.inlen ≠ 16 → ∃ t, exec .keyset s = .next t ∧ FailsWith s t 1) ∧
  (∀ s t : State, exec .keyset s = .next t → t.err ≠ 0 → t.err = 1 ∧ s.inlen ≠ 16)

/-- R143: keyed and with INLEN at most CAP - 8, ENCRYPT completes with the encryption of IN[0..INLEN-1] in OUT and OUTLEN =
n + 8 - (n mod 8); the binding and everything a command leaves alone are unchanged. -/
def Obligations.EncryptCompletes : Prop :=
  ∀ s : State, s.config.wf → s.keyed = true → s.inlen.toNat ≤ s.config.cap - 8 →
    ∃ t, exec .encrypt s = .next t ∧
      SucceedsWith s t (encryptStream s.cipher ((List.range s.inlen.toNat).map (readIn s))) ∧ BindingKept s t ∧
      t.outlen.toNat = s.inlen.toNat + (8 - s.inlen.toNat % 8) ∧ t.outlen.toNat ≤ s.config.cap

/-- R143, R184, R185, R187: ENCRYPT's errors, in their order; it has no others (R182). -/
def Obligations.EncryptErrorsInOrder : Prop :=
  (∀ s : State, s.keyed = false → ∃ t, exec .encrypt s = .next t ∧ FailsWith s t 4) ∧
  (∀ s : State, s.keyed = true → s.config.cap - 8 < s.inlen.toNat → ∃ t, exec .encrypt s = .next t ∧ FailsWith s t 6) ∧
  (∀ s t : State, exec .encrypt s = .next t → t.err = 0 ∨ t.err = 4 ∨ t.err = 6)

/-- R145: keyed, with INLEN a positive multiple of 8 at most CAP, and with a valid pad in what IN[0..INLEN-1] deciphers to,
DECRYPT completes with the stripped plaintext in OUT, 1 to 8 bytes shorter than its input; the binding and everything a
command leaves alone are unchanged. -/
def Obligations.DecryptCompletes : Prop :=
  ∀ (s : State) (plain : List Byte), s.keyed = true → s.inlen.toNat ≤ s.config.cap →
    decryptStream s.cipher ((List.range s.inlen.toNat).map (readIn s)) = .ok plain →
    ∃ t, exec .decrypt s = .next t ∧ SucceedsWith s t plain ∧ BindingKept s t ∧
      t.outlen.toNat < s.inlen.toNat ∧ s.inlen.toNat ≤ t.outlen.toNat + 8

/-- R145, R182 to R185, R187: DECRYPT's errors, in their order; it has no others. -/
def Obligations.DecryptErrorsInOrder : Prop :=
  (∀ s : State, s.keyed = false → ∃ t, exec .decrypt s = .next t ∧ FailsWith s t 4) ∧
  (∀ s : State, s.keyed = true → s.config.cap < s.inlen.toNat → ∃ t, exec .decrypt s = .next t ∧ FailsWith s t 6) ∧
  (∀ s : State, s.keyed = true → s.inlen.toNat ≤ s.config.cap → (s.inlen = 0 ∨ s.inlen.toNat % 8 ≠ 0) →
    ∃ t, exec .decrypt s = .next t ∧ FailsWith s t 2) ∧
  (∀ s : State, s.keyed = true → s.inlen.toNat ≤ s.config.cap → s.inlen ≠ 0 → s.inlen.toNat % 8 = 0 →
    decryptStream s.cipher ((List.range s.inlen.toNat).map (readIn s)) = .error .invalidPadding →
    ∃ t, exec .decrypt s = .next t ∧ FailsWith s t 3) ∧
  (∀ s t : State, exec .decrypt s = .next t → t.err = 0 ∨ t.err = 2 ∨ t.err = 3 ∨ t.err = 4 ∨ t.err = 6)

/-- R73, R186: every illegal word completes with IllegalCommand, whatever the state; said of the command and of the step
that a write of the word to CMD is. -/
def Obligations.IllegalWordsCompleteWithError : Prop :=
  (∀ (s : State) (op : BitVec 4) (mbz : BitVec 28), ∃ t, exec (.illegal op mbz) s = .next t ∧ FailsWith s t 5) ∧
  (∀ (s : State) (w : Word) (rest : List HostEvent), w ≠ 1 → w ≠ 2 → w ≠ 3 →
    s.pending = .sw (s.config.base + 0x00000) w :: rest →
    ∃ t, step s = .next t ∧ FailsWith { s with pending := rest } t 5)

/-- R93, R188: an error, whichever and of whichever command, leaves the CipherState, KEYED, INLEN, IN and the parameters as
they were, OUTLEN = 0 and no OUT byte specified. -/
def Obligations.EveryErrorLeavesTheBinding : Prop :=
  ∀ (i : Instr) (s t : State), exec i s = .next t → t.err ≠ 0 → FailsWith s t t.err

/-- R96: every command ends, in every state. -/
def Obligations.EveryCommandEnds : Prop :=
  ∀ (i : Instr) (s : State), ∃ t, exec i s = .next t

/-- R94: no command writes IN, INLEN or CAPR; and what a command leaves in ERR, OUTLEN, OUT[0..OUTLEN-1], KEYED and the
CipherState does not depend on OUT or OUTLEN. -/
def Obligations.CommandsNeitherWriteInNorReadOut : Prop :=
  (∀ (i : Instr) (s t : State), exec i s = .next t → CommandKeeps s t) ∧
  (∀ (i : Instr) (s s' t t' : State), s' = { s with outBuf := s'.outBuf, outlen := s'.outlen } →
    exec i s = .next t → exec i s' = .next t' →
    t.err = t'.err ∧ t.outlen = t'.outlen ∧ outputBytes t = outputBytes t' ∧ t.keyed = t'.keyed ∧ t.cipher = t'.cipher)

/-- R95: the outcome of ENCRYPT and of DECRYPT is a function of P, S0, S1, KEYED, INLEN and IN[0..INLEN-1] alone (on one
engine, so with one CAP). -/
def Obligations.StreamCommandsAreStateless : Prop :=
  ∀ (i : Instr) (s s' t t' : State), i = .encrypt ∨ i = .decrypt →
    s.cipher = s'.cipher → s.keyed = s'.keyed → s.inlen = s'.inlen → s.config.cap = s'.config.cap →
    (∀ j, j < s.inlen.toNat → readIn s j = readIn s' j) →
    exec i s = .next t → exec i s' = .next t' →
    t.err = t'.err ∧ t.outlen = t'.outlen ∧ outputBytes t = outputBytes t'

/-- R190: a failed command, repeated without a change of INLEN, IN or the binding, gives the same error again. For IN bytes
the host never wrote it rests on log 6: such a byte keeps its free value until the next reset. -/
def Obligations.RetryGivesTheSameError : Prop :=
  ∀ (i : Instr) (s t u : State), exec i s = .next t → t.err ≠ 0 → exec i t = .next u → u.err = t.err

/-- R30, R204: after every command OUT[j] is specified exactly for j below OUTLEN. It rests on log 5: an OUT byte without a
specified value reads as a free value. -/
def Obligations.OutSpecifiedExactlyBelowOutlen : Prop :=
  ∀ (i : Instr) (s t : State), s.config.wf → exec i s = .next t → ∀ j, OutUnspecified t j ↔ t.outlen.toNat ≤ j

/-- R146, at the level of commands: ENCRYPT, then DECRYPT of what it left in OUT, by an engine with the same binding,
gives ERR = 0, OUTLEN = the plaintext's length and the plaintext in OUT. The copy fits into IN. -/
def Obligations.EncryptThenDecryptGivesThePlaintext : Prop :=
  ∀ s t u : State, s.config.wf → s.keyed = true → s.inlen.toNat ≤ s.config.cap - 8 → exec .encrypt s = .next t →
    u.config = t.config → u.cipher = t.cipher → u.keyed = t.keyed → u.inlen = t.outlen →
    (∀ j, j < t.outlen.toNat → readIn u j = readOut t j) →
    t.outlen.toNat ≤ t.config.cap ∧
    ∃ v, exec .decrypt u = .next v ∧ v.err = 0 ∧ v.outlen = s.inlen ∧
      ∀ i, i < s.inlen.toNat → readOut v i = readIn s i

/-- R26, R36, R37: while KEYED = 0, what P, S0, S1, L and R hold (unspecified after reset) shows nowhere: two engines
that differ in them and in what OUT held give, for every command, the same ERR, KEYED, INLEN, OUTLEN, IN and
OUT[0..OUTLEN-1], and the same CipherState once they are keyed. -/
def Obligations.UnkeyedTablesAreNeverObserved : Prop :=
  ∀ (i : Instr) (s s' t t' : State), s.keyed = false → s'.keyed = false → s.config = s'.config → s.inlen = s'.inlen →
    (∀ j, readIn s j = readIn s' j) → exec i s = .next t → exec i s' = .next t' →
    statusWord t = statusWord t' ∧ t.inlen = t'.inlen ∧ t.outlen = t'.outlen ∧ (∀ j, readIn t j = readIn t' j) ∧
    outputBytes t = outputBytes t' ∧ (t.keyed = true → t.cipher = t'.cipher)

/-- R37: no host access reads P, S0, S1, L or R: a step that is neither a command nor a reset does the same whatever they
hold. It leaves P, S0 and S1 alone (R25, R197). That it leaves L and R alone rests on log 8: R28 leaves their value between
commands unspecified. -/
def Obligations.HostAccessesNeverReadTheTables : Prop :=
  ∀ (s t : State) (cs : CipherState) (l r : Word),
    (∀ v rest, s.pending ≠ .sw (s.config.base + 0x00000) v :: rest) → (∀ rest, s.pending ≠ .reset :: rest) →
    step s = .next t →
    step { s with cipher := cs, workL := l, workR := r } = .next { t with cipher := cs, workL := l, workR := r } ∧
    t.cipher = s.cipher

/-! ### The window (20_memory.md R53 to R58, 10_state.md R31 to R35) -/

/-- R32: STATUS is ERR in bits [2:0], KEYED in bit 8, and zeros elsewhere. -/
def Obligations.StatusFields : Prop :=
  ∀ s : State,
    (statusWord s).toNat = s.err.toNat + (if s.keyed = true then 0x100 else 0) ∧
    (∀ i, i < 32 → 3 ≤ i → i ≠ 8 → (statusWord s).getLsbD i = false)

/-- R31 to R35, R55: a 32-bit read of each register returns its value and changes nothing but the host's own record of what
it read. -/
def Obligations.RegisterReadsReturnTheirValue : Prop :=
  ∀ (s : State) (rest : List HostEvent) (off : Nat) (v : Word),
    (off = 0x00000 ∧ v = 0) ∨ (off = 0x00004 ∧ v = statusWord s) ∨ (off = 0x00008 ∧ v = s.inlen) ∨
      (off = 0x0000C ∧ v = s.outlen) ∨ (off = 0x00010 ∧ v = BitVec.ofNat 32 s.config.cap) →
    s.pending = .lw (s.config.base + off) :: rest →
    step s = .next { s with pending := rest, reads := s.reads ++ [.lw (s.config.base + off) v] }

/-- R32 to R35, R55: a 32-bit write of INLEN stores the value, and one of STATUS, OUTLEN or CAPR is ignored. -/
def Obligations.RegisterWritesStoreOrAreIgnored : Prop :=
  ∀ (s : State) (rest : List HostEvent) (v : Word),
    (s.pending = .sw (s.config.base + 0x00008) v :: rest → step s = .next { s with pending := rest, inlen := v }) ∧
    (∀ off, off = 0x00004 ∨ off = 0x0000C ∨ off = 0x00010 → s.pending = .sw (s.config.base + off) v :: rest →
      step s = .next { s with pending := rest })

/-- R29, R30, R55: an 8-bit write of IN[i] stores the byte there and nowhere else; one of OUT[j] is ignored; an 8-bit read
returns the byte and changes nothing but the host's record. The canonical form of IN is a premise, and StepKeepsTheInvariant
keeps it. -/
def Obligations.BufferAccessesReachTheirByte : Prop :=
  (∀ (s : State) (rest : List HostEvent) (i : Nat) (v : Byte), s.config.wf → Memory.wf s.inBuf → i < s.config.cap →
    s.pending = .sb (s.config.base + 0x10000 + i) v :: rest →
    ∃ t, step s = .next t ∧ readIn t i = v ∧ (∀ k, k ≠ i → readIn t k = readIn s k) ∧
      t = { s with pending := rest, inBuf := t.inBuf }) ∧
  (∀ (s : State) (rest : List HostEvent) (j : Nat) (v : Byte), s.config.wf → j < s.config.cap →
    s.pending = .sb (s.config.base + 0x20000 + j) v :: rest → step s = .next { s with pending := rest }) ∧
  (∀ (s : State) (rest : List HostEvent) (i : Nat), s.config.wf → i < s.config.cap →
    s.pending = .lb (s.config.base + 0x10000 + i) :: rest →
    step s = .next { s with
      pending := rest, reads := s.reads ++ [.lb (s.config.base + 0x10000 + i) (readIn s i)] }) ∧
  (∀ (s : State) (rest : List HostEvent) (j : Nat), s.config.wf → j < s.config.cap →
    s.pending = .lb (s.config.base + 0x20000 + j) :: rest →
    step s = .next { s with
      pending := rest, reads := s.reads ++ [.lb (s.config.base + 0x20000 + j) (readOut s j)] })

/-- R54, R56: at an offset of the window, a 32-bit access has a meaning exactly at the five registers, an 8-bit access exactly
in IN and in OUT; every other access, of any width, and every instruction fetch, is refused. -/
def Obligations.OtherAccessesAreRefused : Prop :=
  ∀ (s : State) (rest : List HostEvent) (off : Nat), s.config.wf → off < 0x40000 →
    (∀ e v, e = .lw (s.config.base + off) ∨ e = .sw (s.config.base + off) v → s.pending = e :: rest →
      ((∃ t, step s = .next t) ↔ off = 0 ∨ off = 4 ∨ off = 8 ∨ off = 0xC ∨ off = 0x10) ∧
      ((∃ r, step s = .refused r) ↔ ¬(off = 0 ∨ off = 4 ∨ off = 8 ∨ off = 0xC ∨ off = 0x10))) ∧
    (∀ e v, e = .lb (s.config.base + off) ∨ e = .sb (s.config.base + off) v → s.pending = e :: rest →
      ((∃ t, step s = .next t) ↔
        0x10000 ≤ off ∧ off < 0x10000 + s.config.cap ∨ 0x20000 ≤ off ∧ off < 0x20000 + s.config.cap) ∧
      ((∃ r, step s = .refused r) ↔
        ¬(0x10000 ≤ off ∧ off < 0x10000 + s.config.cap ∨ 0x20000 ≤ off ∧ off < 0x20000 + s.config.cap))) ∧
    (∀ e, e = .otherRead (s.config.base + off) ∨ e = .otherWrite (s.config.base + off) ∨
        e = .fetch (s.config.base + off) → s.pending = e :: rest →
      ∃ r, step s = .refused r)

/-- R76: `read n -> o` is a read of OUTLEN and then a read of OUT[0] to OUT[n-1]; it rests on log 13 for the moment at which
n is known. -/
def Obligations.ReadPseudoExpands : Prop :=
  ∀ (s : State) (rest : List HostEvent), s.pending = .readOutput :: rest →
    step s = .next { s with
      pending := .lw (s.config.base + 0x0000C) ::
        ((List.range s.outlen.toNat).map (fun j => .lb (s.config.base + 0x20000 + j)) ++ rest) }

/-- R20, R58: the host's events are served one a step, in the order the host issues them: a step that answers a next state
takes the first event off the list and leaves the rest of it. That the events are a list in the state rests on log 3, and
that a reset leaves the events behind it in place on log 12. -/
def Obligations.EventsAreServedInOrder : Prop :=
  ∀ (s t : State) (e : HostEvent) (rest : List HostEvent), s.pending = e :: rest → e ≠ .readOutput →
    step s = .next t → t.pending = rest

/-- R201: with no access left the engine waits and nothing changes; it rests on log 3, the model's choice for the end of a
host program. -/
def Obligations.EngineWaitsForTheHost : Prop :=
  ∀ s : State, s.pending = [] → step s = .next s

/-! ### Reset (10_state.md R36, 70_reset_and_hazards.md R200) -/

/-- R36, R200: after a reset KEYED, ERR, INLEN and OUTLEN are 0, no byte of IN or OUT has a specified value, CAPR reads CAP
and CMD reads 0; the parameters stay. The same of the state after power-on. That the host's program and record stay rests on
log 12. -/
def Obligations.ResetGivesTheResetValues : Prop :=
  (∀ (s : State) (rest : List HostEvent), s.pending = .reset :: rest →
    ∃ t, step s = .next t ∧ t.keyed = false ∧ t.err = 0 ∧ t.inlen = 0 ∧ t.outlen = 0 ∧
      (∀ i, InUnspecified t i) ∧ (∀ j, OutUnspecified t j) ∧
      readReg t .cmd = 0 ∧ readReg t .capr = BitVec.ofNat 32 s.config.cap ∧
      t.config = s.config ∧ t.pending = rest ∧ t.reads = s.reads) ∧
  (statusWord State.reset = 0 ∧ State.reset.inlen = 0 ∧ State.reset.outlen = 0 ∧
    (∀ i, InUnspecified State.reset i) ∧ (∀ j, OutUnspecified State.reset j))

/-- The legal states include the one right after reset (R36). -/
def Obligations.ResetSatisfiesTheInvariant : Prop := State.reset.Inv

/-- From every legal state every step that answers a next state gives a legal one: the parameters keep R7's limits, IN its
canonical form and its size, OUT specifies exactly OUT[0..OUTLEN-1], OUTLEN is at most CAP (R34), ERR is never 7 (R32), an
error leaves OUTLEN = 0 (R93), and KEYED is 1 only with a CipherState some key's schedule built (R25, R27). -/
def Obligations.StepKeepsTheInvariant : Prop :=
  ∀ s t : State, s.Inv → step s = .next t → t.Inv

/-! ### Whole-machine rules: who writes what -/

/-- R25: P, S0 and S1 change only in the step of a successful KEYSET and of a reset. -/
def Obligations.CipherStateWrittenOnlyByKeyset : Prop :=
  ∀ s t : State, step s = .next t → t.cipher ≠ s.cipher →
    (∃ rest, s.pending = .sw (s.config.base + 0x00000) 1 :: rest ∧ s.inlen = 16 ∧ t.err = 0 ∧ t.keyed = true) ∨
    (∃ rest, s.pending = .reset :: rest)

/-- R27: KEYED becomes 1 only by a successful KEYSET and 0 only by reset. -/
def Obligations.KeyedWrittenOnlyByKeysetAndReset : Prop :=
  ∀ s t : State, step s = .next t →
    (s.keyed = false → t.keyed = true →
      ∃ rest, s.pending = .sw (s.config.base + 0x00000) 1 :: rest ∧ s.inlen = 16 ∧ t.err = 0) ∧
    (s.keyed = true → t.keyed = false → ∃ rest, s.pending = .reset :: rest)

/-- R29, R33: INLEN changes only by the host's write of it, IN[i] only by the host's write of that byte, and either by reset. -/
def Obligations.InputWrittenOnlyByTheHost : Prop :=
  ∀ s t : State, s.config.wf → Memory.wf s.inBuf → step s = .next t → (∀ rest, s.pending ≠ .reset :: rest) →
    (t.inlen ≠ s.inlen → ∃ rest, s.pending = .sw (s.config.base + 0x00008) t.inlen :: rest) ∧
    (∀ i, readIn t i ≠ readIn s i → ∃ rest, s.pending = .sb (s.config.base + 0x10000 + i) (readIn t i) :: rest)

/-- R30, R32, R34, R189: ERR, OUTLEN and the specified bytes of OUT change only by a command and by reset, so they keep what
the last command left. The parameters never change (R7, R24, R35); that they are a field of the state that no step changes
rests on log 1. -/
def Obligations.OutcomeWrittenOnlyByCommands : Prop :=
  ∀ s t : State, step s = .next t →
    t.config = s.config ∧
    (t.err ≠ s.err ∨ t.outlen ≠ s.outlen ∨ (∃ j, Memory.read t.outBuf j ≠ Memory.read s.outBuf j) →
      (∃ v rest, s.pending = .sw (s.config.base + 0x00000) v :: rest) ∨ (∃ rest, s.pending = .reset :: rest))
end

