-- ==== Sys2Proof/Laws/Memory.lean ====
section
/-! SUPPORT. The laws of a buffer: read after write, and that every operation keeps the canonical form. -/

namespace Sys2Proof.Machine

@[simp] theorem Memory.read_nil (a : Nat) : Memory.read [] a = none := rfl

/-- What reads as nothing below every listed index. -/
theorem Memory.read_eq_none_of_lt {m : Memory} {a : Nat} (h : ∀ c ∈ m, a < c.1) : Memory.read m a = none := by
  induction m with
  | nil => rfl
  | cons c m ih =>
    have h1 := h c (by simp)
    simp only [Memory.read]
    rw [if_neg (by omega), ih fun d hd => h d (by simp [hd])]

/-- A read after a write: the value at the index written, the old value everywhere else. -/
theorem Memory.read_write {m : Memory} (hm : Memory.wf m) (a : Nat) (v : Byte) (b : Nat) :
    Memory.read (Memory.write m a v) b = if b = a then some v else Memory.read m b := by
  induction m with
  | nil => simp [Memory.write, Memory.read]
  | cons c m ih =>
    obtain ⟨k, w⟩ := c
    obtain ⟨hk, hm'⟩ := List.pairwise_cons.1 hm
    simp only [Memory.write]
    split
    · simp only [Memory.read]
    · split
      · subst_vars; simp only [Memory.read]; split <;> rfl
      · simp only [Memory.read, ih hm']
        split
        · rw [if_neg (by omega)]
        · rfl

/-- A write after the head's index stays after it. -/
theorem Memory.lt_of_mem_write {m : Memory} {a k : Nat} {v : Byte} (ha : k < a) (hm : ∀ c ∈ m, k < c.1) :
    ∀ c ∈ Memory.write m a v, k < c.1 := by
  induction m with
  | nil => simpa [Memory.write] using ha
  | cons c m ih =>
    obtain ⟨j, w⟩ := c
    have hj := hm (j, w) (by simp)
    have hrest : ∀ c ∈ m, k < c.1 := fun d hd => hm d (by simp [hd])
    intro c hc
    simp only [Memory.write] at hc
    split at hc
    · rcases List.mem_cons.1 hc with rfl | hc
      · exact ha
      · exact hm c hc
    · split at hc
      · rcases List.mem_cons.1 hc with rfl | hc
        · exact ha
        · exact hrest c hc
      · rcases List.mem_cons.1 hc with rfl | hc
        · exact hj
        · exact ih hrest c hc

/-- A write keeps the canonical form. -/
theorem Memory.write_wf {m : Memory} (hm : Memory.wf m) (a : Nat) (v : Byte) : Memory.wf (Memory.write m a v) := by
  induction m with
  | nil => simp [Memory.write, Memory.wf]
  | cons c m ih =>
    obtain ⟨k, w⟩ := c
    obtain ⟨hk, hm'⟩ := List.pairwise_cons.1 hm
    have hkm : ∀ c ∈ m, k < c.1 := fun c hc => hk c.1 (List.mem_map_of_mem hc)
    simp only [Memory.write]
    split
    · next h =>
      refine List.pairwise_cons.2 ⟨?_, hm⟩
      intro j hj
      rcases List.mem_cons.1 hj with rfl | hj
      · exact h
      · exact h.trans (hk j hj)
    · split
      · next h => subst h; exact List.pairwise_cons.2 ⟨hk, hm'⟩
      · refine List.pairwise_cons.2 ⟨?_, ih hm'⟩
        intro j hj
        obtain ⟨c, hc, rfl⟩ := List.mem_map.1 hj
        exact Memory.lt_of_mem_write (by omega) hkm c hc

/-- A write inside a buffer stays inside it. -/
theorem Memory.write_within {m : Memory} {cap a : Nat} (hm : Memory.within m cap) (ha : a < cap) (v : Byte) :
    Memory.within (Memory.write m a v) cap := by
  induction m with
  | nil => simpa [Memory.within, Memory.write] using ha
  | cons c m ih =>
    have hrest : Memory.within m cap := fun d hd => hm d (by simp [hd])
    have hc := hm c (by simp)
    obtain ⟨k, w⟩ := c
    intro d hd
    simp only [Memory.write] at hd
    split at hd
    · rcases List.mem_cons.1 hd with rfl | hd
      · exact ha
      · exact hm d hd
    · split at hd
      · rcases List.mem_cons.1 hd with rfl | hd
        · exact ha
        · exact hrest d hd
      · rcases List.mem_cons.1 hd with rfl | hd
        · exact hc
        · exact ih hrest d hd

/-- The indices of a buffer built from bytes. -/
theorem Memory.ofBytesFrom_indices (a : Nat) (bs : List Byte) :
    (Memory.ofBytesFrom a bs).map Prod.fst = List.range' a bs.length := by
  induction bs generalizing a with
  | nil => rfl
  | cons b bs ih => simp [Memory.ofBytesFrom, ih, List.range']

/-- A buffer built from bytes is in canonical form. -/
theorem Memory.ofBytesFrom_wf (a : Nat) (bs : List Byte) : Memory.wf (Memory.ofBytesFrom a bs) := by
  rw [Memory.wf, Memory.ofBytesFrom_indices]
  exact List.pairwise_lt_range'

/-- A buffer built from bytes holds exactly those bytes, from its first index on. -/
theorem Memory.read_ofBytesFrom (a : Nat) (bs : List Byte) (j : Nat) :
    Memory.read (Memory.ofBytesFrom a bs) j = if a ≤ j then bs[j - a]? else none := by
  induction bs generalizing a with
  | nil => simp [Memory.ofBytesFrom]
  | cons b bs ih =>
    simp only [Memory.ofBytesFrom, Memory.read, ih]
    rcases Nat.lt_trichotomy j a with h | rfl | h
    · rw [if_neg (by omega), if_neg (by omega), if_neg (by omega)]
    · simp
    · rw [if_neg (by omega), if_pos (by omega), if_pos (by omega), show j - a = (j - (a + 1)) + 1 by omega]
      rfl

/-- From index 0: the bytes themselves. -/
@[simp] theorem Memory.read_ofBytes (bs : List Byte) (j : Nat) : Memory.read (Memory.ofBytesFrom 0 bs) j = bs[j]? := by
  simp [Memory.read_ofBytesFrom]

end Sys2Proof.Machine
end

