-- ==== Sys2Proof/Laws/State.lean ====
section
/-! SUPPORT. One lemma per field per named update of State, so that no proof unfolds a record update. -/

namespace Sys2Proof.Machine

/-! ### writeIn -/

@[simp] theorem writeIn_config (s : State) (i : Nat) (v : Byte) :
    (writeIn s i v).config = s.config := rfl
@[simp] theorem writeIn_cipher (s : State) (i : Nat) (v : Byte) :
    (writeIn s i v).cipher = s.cipher := rfl
@[simp] theorem writeIn_keyed (s : State) (i : Nat) (v : Byte) :
    (writeIn s i v).keyed = s.keyed := rfl
@[simp] theorem writeIn_err (s : State) (i : Nat) (v : Byte) :
    (writeIn s i v).err = s.err := rfl
@[simp] theorem writeIn_inlen (s : State) (i : Nat) (v : Byte) :
    (writeIn s i v).inlen = s.inlen := rfl
@[simp] theorem writeIn_outlen (s : State) (i : Nat) (v : Byte) :
    (writeIn s i v).outlen = s.outlen := rfl
@[simp] theorem writeIn_inBuf (s : State) (i : Nat) (v : Byte) :
    (writeIn s i v).inBuf = Memory.write s.inBuf i v := rfl
@[simp] theorem writeIn_outBuf (s : State) (i : Nat) (v : Byte) :
    (writeIn s i v).outBuf = s.outBuf := rfl
@[simp] theorem writeIn_workL (s : State) (i : Nat) (v : Byte) :
    (writeIn s i v).workL = s.workL := rfl
@[simp] theorem writeIn_workR (s : State) (i : Nat) (v : Byte) :
    (writeIn s i v).workR = s.workR := rfl
@[simp] theorem writeIn_draws (s : State) (i : Nat) (v : Byte) :
    (writeIn s i v).draws = s.draws := rfl
@[simp] theorem writeIn_resets (s : State) (i : Nat) (v : Byte) :
    (writeIn s i v).resets = s.resets := rfl
@[simp] theorem writeIn_pending (s : State) (i : Nat) (v : Byte) :
    (writeIn s i v).pending = s.pending := rfl
@[simp] theorem writeIn_reads (s : State) (i : Nat) (v : Byte) :
    (writeIn s i v).reads = s.reads := rfl

/-! ### recordRead -/

@[simp] theorem recordRead_config (s : State) (r : ReadResult) :
    (recordRead s r).config = s.config := rfl
@[simp] theorem recordRead_cipher (s : State) (r : ReadResult) :
    (recordRead s r).cipher = s.cipher := rfl
@[simp] theorem recordRead_keyed (s : State) (r : ReadResult) :
    (recordRead s r).keyed = s.keyed := rfl
@[simp] theorem recordRead_err (s : State) (r : ReadResult) :
    (recordRead s r).err = s.err := rfl
@[simp] theorem recordRead_inlen (s : State) (r : ReadResult) :
    (recordRead s r).inlen = s.inlen := rfl
@[simp] theorem recordRead_outlen (s : State) (r : ReadResult) :
    (recordRead s r).outlen = s.outlen := rfl
@[simp] theorem recordRead_inBuf (s : State) (r : ReadResult) :
    (recordRead s r).inBuf = s.inBuf := rfl
@[simp] theorem recordRead_outBuf (s : State) (r : ReadResult) :
    (recordRead s r).outBuf = s.outBuf := rfl
@[simp] theorem recordRead_workL (s : State) (r : ReadResult) :
    (recordRead s r).workL = s.workL := rfl
@[simp] theorem recordRead_workR (s : State) (r : ReadResult) :
    (recordRead s r).workR = s.workR := rfl
@[simp] theorem recordRead_draws (s : State) (r : ReadResult) :
    (recordRead s r).draws = s.draws := rfl
@[simp] theorem recordRead_resets (s : State) (r : ReadResult) :
    (recordRead s r).resets = s.resets := rfl
@[simp] theorem recordRead_pending (s : State) (r : ReadResult) :
    (recordRead s r).pending = s.pending := rfl
@[simp] theorem recordRead_reads (s : State) (r : ReadResult) :
    (recordRead s r).reads = s.reads ++ [r] := rfl

/-! ### completeOk -/

@[simp] theorem completeOk_config (s : State) (out : List Byte) (cs : Option CipherState) :
    (completeOk s out cs).config = s.config := rfl
@[simp] theorem completeOk_cipher (s : State) (out : List Byte) (cs : Option CipherState) :
    (completeOk s out cs).cipher = cs.getD s.cipher := rfl
@[simp] theorem completeOk_keyed (s : State) (out : List Byte) (cs : Option CipherState) :
    (completeOk s out cs).keyed = (cs.isSome || s.keyed) := rfl
@[simp] theorem completeOk_err (s : State) (out : List Byte) (cs : Option CipherState) :
    (completeOk s out cs).err = 0 := rfl
@[simp] theorem completeOk_inlen (s : State) (out : List Byte) (cs : Option CipherState) :
    (completeOk s out cs).inlen = s.inlen := rfl
@[simp] theorem completeOk_outlen (s : State) (out : List Byte) (cs : Option CipherState) :
    (completeOk s out cs).outlen = BitVec.ofNat 32 out.length := rfl
@[simp] theorem completeOk_inBuf (s : State) (out : List Byte) (cs : Option CipherState) :
    (completeOk s out cs).inBuf = s.inBuf := rfl
@[simp] theorem completeOk_outBuf (s : State) (out : List Byte) (cs : Option CipherState) :
    (completeOk s out cs).outBuf = Memory.ofBytesFrom 0 out := rfl
@[simp] theorem completeOk_workL (s : State) (out : List Byte) (cs : Option CipherState) :
    (completeOk s out cs).workL = Config.freeL (s.draws + 1) := rfl
@[simp] theorem completeOk_workR (s : State) (out : List Byte) (cs : Option CipherState) :
    (completeOk s out cs).workR = Config.freeR (s.draws + 1) := rfl
@[simp] theorem completeOk_draws (s : State) (out : List Byte) (cs : Option CipherState) :
    (completeOk s out cs).draws = s.draws + 1 := rfl
@[simp] theorem completeOk_resets (s : State) (out : List Byte) (cs : Option CipherState) :
    (completeOk s out cs).resets = s.resets := rfl
@[simp] theorem completeOk_pending (s : State) (out : List Byte) (cs : Option CipherState) :
    (completeOk s out cs).pending = s.pending := rfl
@[simp] theorem completeOk_reads (s : State) (out : List Byte) (cs : Option CipherState) :
    (completeOk s out cs).reads = s.reads := rfl

/-! ### completeErr -/

@[simp] theorem completeErr_config (s : State) (e : ErrKind) :
    (completeErr s e).config = s.config := rfl
@[simp] theorem completeErr_cipher (s : State) (e : ErrKind) :
    (completeErr s e).cipher = s.cipher := rfl
@[simp] theorem completeErr_keyed (s : State) (e : ErrKind) :
    (completeErr s e).keyed = s.keyed := rfl
@[simp] theorem completeErr_err (s : State) (e : ErrKind) :
    (completeErr s e).err = e.code := rfl
@[simp] theorem completeErr_inlen (s : State) (e : ErrKind) :
    (completeErr s e).inlen = s.inlen := rfl
@[simp] theorem completeErr_outlen (s : State) (e : ErrKind) :
    (completeErr s e).outlen = 0 := rfl
@[simp] theorem completeErr_inBuf (s : State) (e : ErrKind) :
    (completeErr s e).inBuf = s.inBuf := rfl
@[simp] theorem completeErr_outBuf (s : State) (e : ErrKind) :
    (completeErr s e).outBuf = [] := rfl
@[simp] theorem completeErr_workL (s : State) (e : ErrKind) :
    (completeErr s e).workL = Config.freeL (s.draws + 1) := rfl
@[simp] theorem completeErr_workR (s : State) (e : ErrKind) :
    (completeErr s e).workR = Config.freeR (s.draws + 1) := rfl
@[simp] theorem completeErr_draws (s : State) (e : ErrKind) :
    (completeErr s e).draws = s.draws + 1 := rfl
@[simp] theorem completeErr_resets (s : State) (e : ErrKind) :
    (completeErr s e).resets = s.resets := rfl
@[simp] theorem completeErr_pending (s : State) (e : ErrKind) :
    (completeErr s e).pending = s.pending := rfl
@[simp] theorem completeErr_reads (s : State) (e : ErrKind) :
    (completeErr s e).reads = s.reads := rfl

/-! ### resetEngine -/

@[simp] theorem resetEngine_config (s : State) :
    (resetEngine s).config = s.config := by simp only [resetEngine, State.atReset]
@[simp] theorem resetEngine_cipher (s : State) :
    (resetEngine s).cipher = .unspecified (s.draws + 1) := rfl
@[simp] theorem resetEngine_keyed (s : State) :
    (resetEngine s).keyed = false := rfl
@[simp] theorem resetEngine_err (s : State) :
    (resetEngine s).err = 0 := rfl
@[simp] theorem resetEngine_inlen (s : State) :
    (resetEngine s).inlen = 0 := rfl
@[simp] theorem resetEngine_outlen (s : State) :
    (resetEngine s).outlen = 0 := rfl
@[simp] theorem resetEngine_inBuf (s : State) :
    (resetEngine s).inBuf = [] := rfl
@[simp] theorem resetEngine_outBuf (s : State) :
    (resetEngine s).outBuf = [] := rfl
@[simp] theorem resetEngine_workL (s : State) :
    (resetEngine s).workL = Config.freeL (s.draws + 1) := rfl
@[simp] theorem resetEngine_workR (s : State) :
    (resetEngine s).workR = Config.freeR (s.draws + 1) := rfl
@[simp] theorem resetEngine_draws (s : State) :
    (resetEngine s).draws = s.draws + 1 := rfl
@[simp] theorem resetEngine_resets (s : State) :
    (resetEngine s).resets = s.resets + 1 := rfl
@[simp] theorem resetEngine_pending (s : State) :
    (resetEngine s).pending = s.pending := by simp only [resetEngine, State.atReset]
@[simp] theorem resetEngine_reads (s : State) :
    (resetEngine s).reads = s.reads := by simp only [resetEngine, State.atReset]

/-! ### withFetchWord -/

@[simp] theorem withFetchWord_config (s : State) (n w : Nat) :
    (s.withFetchWord n w).config = s.config := rfl
@[simp] theorem withFetchWord_cipher (s : State) (n w : Nat) :
    (s.withFetchWord n w).cipher = s.cipher := rfl
@[simp] theorem withFetchWord_keyed (s : State) (n w : Nat) :
    (s.withFetchWord n w).keyed = s.keyed := rfl
@[simp] theorem withFetchWord_err (s : State) (n w : Nat) :
    (s.withFetchWord n w).err = s.err := rfl
@[simp] theorem withFetchWord_inlen (s : State) (n w : Nat) :
    (s.withFetchWord n w).inlen = s.inlen := rfl
@[simp] theorem withFetchWord_outlen (s : State) (n w : Nat) :
    (s.withFetchWord n w).outlen = s.outlen := rfl
@[simp] theorem withFetchWord_inBuf (s : State) (n w : Nat) :
    (s.withFetchWord n w).inBuf = s.inBuf := rfl
@[simp] theorem withFetchWord_outBuf (s : State) (n w : Nat) :
    (s.withFetchWord n w).outBuf = s.outBuf := rfl
@[simp] theorem withFetchWord_workL (s : State) (n w : Nat) :
    (s.withFetchWord n w).workL = s.workL := rfl
@[simp] theorem withFetchWord_workR (s : State) (n w : Nat) :
    (s.withFetchWord n w).workR = s.workR := rfl
@[simp] theorem withFetchWord_draws (s : State) (n w : Nat) :
    (s.withFetchWord n w).draws = s.draws := rfl
@[simp] theorem withFetchWord_resets (s : State) (n w : Nat) :
    (s.withFetchWord n w).resets = s.resets := rfl
@[simp] theorem withFetchWord_pending (s : State) (n w : Nat) :
    (s.withFetchWord n w).pending = commandEvent s.config (BitVec.ofNat 32 w) :: s.pending := rfl
@[simp] theorem withFetchWord_reads (s : State) (n w : Nat) :
    (s.withFetchWord n w).reads = s.reads := rfl

/-! ### The state after reset (R36) -/

@[simp] theorem reset_keyed : State.reset.keyed = false := rfl
@[simp] theorem reset_err : State.reset.err = 0 := rfl
@[simp] theorem reset_inlen : State.reset.inlen = 0 := rfl
@[simp] theorem reset_outlen : State.reset.outlen = 0 := rfl
@[simp] theorem reset_inBuf : State.reset.inBuf = [] := rfl
@[simp] theorem reset_outBuf : State.reset.outBuf = [] := rfl
@[simp] theorem reset_config : State.reset.config = defaultConfig := rfl
@[simp] theorem reset_pending : State.reset.pending = [] := rfl
@[simp] theorem reset_reads : State.reset.reads = [] := rfl

/-- Reset's memory has the canonical form. -/
theorem reset_memory_wf : Memory.wf State.reset.inBuf ∧ Memory.wf State.reset.outBuf := by decide

/-- The default parameters keep R7's limits. -/
theorem defaultConfig_wf : defaultConfig.wf := by decide

end Sys2Proof.Machine
end

