-- ==== Sys2Proof/Laws/Bytes.lean ====
section
/-! SUPPORT. Bytes and words convert back and forth (00_scope.md R10, 43_stream_codec.md R141). -/

namespace Sys2Proof.Machine

@[simp] theorem byte3_be32 (b0 b1 b2 b3 : Byte) : byte3 (be32 b0 b1 b2 b3) = b0 := by
  ext i hi
  simp only [byte3, be32, BitVec.getElem_extractLsb', BitVec.getLsbD_append]
  rw [if_neg (by omega), if_neg (by omega), if_neg (by omega), show 24 + i - 8 - 8 - 8 = i by omega]
  exact BitVec.getLsbD_eq_getElem hi

@[simp] theorem byte2_be32 (b0 b1 b2 b3 : Byte) : byte2 (be32 b0 b1 b2 b3) = b1 := by
  ext i hi
  simp only [byte2, be32, BitVec.getElem_extractLsb', BitVec.getLsbD_append]
  rw [if_neg (by omega), if_neg (by omega), if_pos (by omega), show 16 + i - 8 - 8 = i by omega]
  exact BitVec.getLsbD_eq_getElem hi

@[simp] theorem byte1_be32 (b0 b1 b2 b3 : Byte) : byte1 (be32 b0 b1 b2 b3) = b2 := by
  ext i hi
  simp only [byte1, be32, BitVec.getElem_extractLsb', BitVec.getLsbD_append]
  rw [if_neg (by omega), if_pos (by omega), show 8 + i - 8 = i by omega]
  exact BitVec.getLsbD_eq_getElem hi

@[simp] theorem byte0_be32 (b0 b1 b2 b3 : Byte) : byte0 (be32 b0 b1 b2 b3) = b3 := by
  ext i hi
  simp only [byte0, be32, BitVec.getElem_extractLsb', BitVec.getLsbD_append]
  rw [if_pos (by omega), show 0 + i = i by omega]
  exact BitVec.getLsbD_eq_getElem hi

@[simp] theorem be32_bytes (x : Word) : be32 (byte3 x) (byte2 x) (byte1 x) (byte0 x) = x := by
  apply BitVec.eq_of_getLsbD_eq
  intro i hi
  simp only [be32, byte3, byte2, byte1, byte0, BitVec.getLsbD_append, BitVec.getLsbD_extractLsb']
  split
  · simp_all
  · split
    · rw [show 8 + (i - 8) = i by omega]; simp_all
    · split
      · rw [show 16 + (i - 8 - 8) = i by omega]; simp_all
      · rw [show 24 + (i - 8 - 8 - 8) = i by omega, decide_eq_true (show i - 8 - 8 - 8 < 8 by omega), Bool.true_and]

/-- A block's 8 bytes, most significant first (R141). -/
theorem packBlock_eq (b : Block) :
    packBlock b = [byte3 b.1, byte2 b.1, byte1 b.1, byte0 b.1, byte3 b.2, byte2 b.2, byte1 b.2, byte0 b.2] := rfl

@[simp] theorem length_packBlock (b : Block) : (packBlock b).length = 8 := rfl

end Sys2Proof.Machine
end

