-- ==== Sys2Proof/Laws/Stream.lean ====
section
/-! SUPPORT. Lengths and chunks of the stream codec and of padding (43_stream_codec.md R140 to R142, 44_padding.md R160). -/

namespace Sys2Proof.Machine

/-- N is in [1, 8] (R160). -/
theorem padLength_bounds (n : Nat) : 1 ≤ padLength n ∧ padLength n ≤ 8 := by
  unfold padLength; omega

@[simp] theorem length_pad (data : List Byte) : (pad data).length = data.length + padLength data.length := by
  simp [pad]

/-- A padded buffer's length is a multiple of 8 (R161). -/
theorem length_pad_mod (data : List Byte) : (pad data).length % 8 = 0 := by
  rw [length_pad, padLength]; omega

@[simp] theorem mapBlocks_nil (f : Block → Block) : mapBlocks f [] = [] := rfl

/-- One chunk and the rest (R140). -/
@[simp] theorem mapBlocks_pack (f : Block → Block) (b : Block) (rest : List Byte) :
    mapBlocks f (packBlock b ++ rest) = packBlock (f b) ++ mapBlocks f rest := by
  simp [packBlock_eq, mapBlocks]

/-- A list of at least 8 bytes begins with the bytes of a block. -/
theorem exists_packBlock_append {data : List Byte} (h : 8 ≤ data.length) :
    ∃ (b : Block) (rest : List Byte), data = packBlock b ++ rest := by
  match data, h with
  | c0 :: c1 :: c2 :: c3 :: c4 :: c5 :: c6 :: c7 :: rest, _ =>
    exact ⟨(be32 c0 c1 c2 c3, be32 c4 c5 c6 c7), rest, by simp [packBlock_eq]⟩

/-- Induction over the chunks of a list whose length is a multiple of 8 (R140). -/
theorem chunk_induction {motive : List Byte → Prop} (nil : motive [])
    (chunk : ∀ (b : Block) (rest : List Byte), rest.length % 8 = 0 → motive rest → motive (packBlock b ++ rest)) :
    ∀ data : List Byte, data.length % 8 = 0 → motive data := by
  intro data h
  generalize hn : data.length / 8 = n
  induction n generalizing data with
  | zero =>
    have : data = [] := List.length_eq_zero_iff.1 (by omega)
    exact this ▸ nil
  | succ n ih =>
    obtain ⟨b, rest, rfl⟩ := exists_packBlock_append (data := data) (by omega)
    simp only [List.length_append, length_packBlock] at h hn
    exact chunk b rest (by omega) (ih rest (by omega) (by omega))

/-- The transform of whole chunks keeps the length. -/
theorem length_mapBlocks (f : Block → Block) {data : List Byte} (h : data.length % 8 = 0) :
    (mapBlocks f data).length = data.length := by
  refine chunk_induction (motive := fun data => (mapBlocks f data).length = data.length) rfl ?_ data h
  intro b rest _ ih
  simp [ih]

/-- Transforms of whole chunks compose chunk by chunk. -/
theorem mapBlocks_comp (f g : Block → Block) {data : List Byte} (h : data.length % 8 = 0) :
    mapBlocks f (mapBlocks g data) = mapBlocks (fun b => f (g b)) data := by
  refine chunk_induction (motive := fun data => mapBlocks f (mapBlocks g data) = mapBlocks (fun b => f (g b)) data) rfl ?_ data h
  intro b rest _ ih
  simp [ih]

/-- The identity transform of whole chunks. -/
theorem mapBlocks_id {data : List Byte} (h : data.length % 8 = 0) : mapBlocks (fun b => b) data = data := by
  refine chunk_induction (motive := fun data => mapBlocks (fun b => b) data = data) rfl ?_ data h
  intro b rest _ ih
  simp [ih]

/-- The ciphertext is as long as the padded data (R142). -/
@[simp] theorem length_encryptStream (cs : CipherState) (data : List Byte) :
    (encryptStream cs data).length = data.length + padLength data.length := by
  rw [encryptStream, length_mapBlocks _ (length_pad_mod data), length_pad]

/-- A stripped list is the front of the list (R162). -/
theorem unpad_eq_some {data plain : List Byte} (h : unpad data = some plain) :
    ∃ n, 1 ≤ n ∧ n ≤ 8 ∧ n ≤ data.length ∧ plain = data.take (data.length - n) := by
  unfold unpad at h
  split at h
  · cases h
  · next last _ =>
    simp only at h
    split at h
    · cases h
    · split at h
      · cases h
      · split at h
        · exact ⟨last.toNat, by omega, by omega, by omega, by simpa using h.symm⟩
        · cases h

/-- The plaintext is 1 to 8 bytes shorter than the ciphertext, whose length is a positive multiple of 8 (R144, R145). -/
theorem decryptStream_ok {cs : CipherState} {data plain : List Byte} (h : decryptStream cs data = .ok plain) :
    0 < data.length ∧ data.length % 8 = 0 ∧ plain.length < data.length ∧ data.length ≤ plain.length + 8 := by
  unfold decryptStream at h
  split at h
  · cases h
  · next hlen =>
    split at h
    · cases h
    · next p hp =>
      obtain ⟨n, h1, h8, hn, rfl⟩ := unpad_eq_some hp
      cases h
      rw [length_mapBlocks _ (by omega)] at *
      simp only [List.length_take, length_mapBlocks _ (show data.length % 8 = 0 by omega)]
      omega

end Sys2Proof.Machine
end

