-- ==== Sys2Proof/Laws/Commands.lean ====
section
/-! SUPPORT. What completing a command does, said once (40_commands.md R92, R93), and exec as a completion (R90). -/

namespace Sys2Proof.Machine

/-- The outcome each command completes with (R90). -/
def outcomeOf : Instr → State → CmdOutcome
  | .keyset, s => keysetCmd s
  | .encrypt, s => encryptCmd s
  | .decrypt, s => decryptCmd s
  | .illegal _ _, _ => .err .illegalCommand

/-- Every command completes with its outcome, in every state. -/
theorem exec_eq (i : Instr) (s : State) : exec i s = .next (complete s (outcomeOf i s)) := by
  cases i <;> rfl

/-- What a command gives is the completion with its outcome, and nothing else. -/
theorem exec_next {i : Instr} {s t : State} (h : exec i s = .next t) : t = complete s (outcomeOf i s) := by
  rw [exec_eq] at h; exact (Host.Outcome.next.inj h).symm

@[simp] theorem complete_ok (s : State) (out : List Byte) (cs : Option CipherState) :
    complete s (.ok out cs) = completeOk s out cs := rfl

@[simp] theorem complete_err (s : State) (e : ErrKind) : complete s (.err e) = completeErr s e := rfl

/-- No command writes the parameters, INLEN, IN or the host's side (R94). -/
theorem commandKeeps_complete (s : State) (o : CmdOutcome) : CommandKeeps s (complete s o) := by
  cases o <;> exact ⟨rfl, rfl, fun _ => rfl, rfl, rfl⟩

/-- The codes of errors are 1 to 6 (R180). -/
theorem code_ne_zero (e : ErrKind) : e.code ≠ 0 := by cases e <;> decide

theorem code_ne_seven (e : ErrKind) : e.code ≠ 7 := by cases e <;> decide

/-- R93, once for every error. -/
theorem failsWith_completeErr (s : State) (e : ErrKind) : FailsWith s (completeErr s e) e.code :=
  ⟨rfl, rfl, fun _ => rfl, commandKeeps_complete s (.err e), ⟨rfl, rfl⟩⟩

/-- The output of a completion with success, when its length fits OUTLEN. -/
theorem outputBytes_completeOk (s : State) (out : List Byte) (cs : Option CipherState) (h : out.length < 2 ^ 32) :
    outputBytes (completeOk s out cs) = out := by
  have hlen : (BitVec.ofNat 32 out.length).toNat = out.length := by simpa using Nat.mod_eq_of_lt h
  apply List.ext_getElem
  · simp [outputBytes, hlen]
  · intro i h1 h2
    simp [outputBytes, readOut, h2]

/-- R92, once for every success. -/
theorem succeedsWith_completeOk (s : State) (out : List Byte) (cs : Option CipherState) (h : out.length < 2 ^ 32) :
    SucceedsWith s (completeOk s out cs) out where
  err := rfl
  outlen := by simpa using Nat.mod_eq_of_lt h
  out_bytes := outputBytes_completeOk s out cs h
  out_rest := fun j hj => by simp [OutUnspecified, hj]
  keeps := commandKeeps_complete s (.ok out cs)

/-- The input is INLEN bytes long. -/
@[simp] theorem length_inputBytes (s : State) : (inputBytes s).length = s.inlen.toNat := by simp [inputBytes]

/-- The input depends on IN[0..INLEN-1] and INLEN alone (R95). -/
theorem inputBytes_congr {s s' : State} (hn : s.inlen = s'.inlen)
    (h : ∀ j, j < s.inlen.toNat → readIn s j = readIn s' j) : inputBytes s = inputBytes s' := by
  rw [inputBytes, inputBytes, ← hn]
  exact List.map_congr_left fun j hj => h j (List.mem_range.1 hj)

/-- The key depends on IN[0..15] alone (R71). -/
theorem keyBytes_congr {s s' : State} (h : ∀ j, j < 16 → readIn s j = readIn s' j) : keyBytes s = keyBytes s' := by
  ext i hi
  simp [keyBytes, h i hi]

/-- A success of any command has an output that fits OUT (R30, R63). -/
theorem length_out_le {i : Instr} {s : State} {out : List Byte} {cs : Option CipherState} (hc : s.config.wf)
    (h : outcomeOf i s = .ok out cs) : out.length ≤ s.config.cap := by
  obtain ⟨h8, h16, -, -⟩ := hc
  cases i with
  | keyset =>
    simp only [outcomeOf, keysetCmd] at h
    split at h <;> cases h
    exact Nat.zero_le _
  | encrypt =>
    simp only [outcomeOf, encryptCmd] at h
    split at h
    · cases h
    · split at h
      · cases h
      · next hcap =>
        cases h
        rw [length_encryptStream, length_inputBytes, padLength]
        omega
  | decrypt =>
    simp only [outcomeOf, decryptCmd] at h
    split at h
    · cases h
    · split at h
      · cases h
      · split at h
        · cases h
        · next hp =>
          cases h
          have := decryptStream_ok hp
          rw [length_inputBytes] at this
          omega
  | illegal op mbz => cases h

/-- Only KEYSET, and only with INLEN = 16, gives a new CipherState: the key schedule of IN[0..15] (R25, R108). -/
theorem newCipher_eq {i : Instr} {s : State} {out : List Byte} {cs : CipherState} (h : outcomeOf i s = .ok out (some cs)) :
    i = .keyset ∧ s.inlen = 16 ∧ out = [] ∧ cs = keySchedule s.config.constTable (keyBytes s) := by
  cases i with
  | keyset =>
    simp only [outcomeOf, keysetCmd] at h
    split at h
    · cases h
    · next hn =>
      simp only [CmdOutcome.ok.injEq, Option.some.injEq] at h
      exact ⟨rfl, by simpa using hn, h.1.symm, h.2.symm⟩
  | encrypt =>
    simp only [outcomeOf, encryptCmd] at h
    split at h
    · cases h
    · split at h <;> cases h
  | decrypt =>
    simp only [outcomeOf, decryptCmd] at h
    split at h
    · cases h
    · split at h
      · cases h
      · split at h <;> cases h
  | illegal op mbz => cases h

end Sys2Proof.Machine
end

