-- ==== Sys2Proof/Laws/Bus.lean ====
section
/-! SUPPORT. The window's map read both ways, and everything a step can do, said once (20_memory.md R53 to R56). -/

namespace Sys2Proof.Machine

/-! ### The map -/

@[simp] theorem windowOffset_add (c : Config) {off : Nat} (h : off < 0x40000) : windowOffset c (c.base + off) = some off := by
  simp [windowOffset, windowSize, h]

/-- An address with an offset is the base plus that offset, inside the window. -/
theorem windowOffset_eq_some {c : Config} {addr off : Nat} (h : windowOffset c addr = some off) :
    addr = c.base + off ∧ off < 0x40000 := by
  unfold windowOffset windowSize at h
  split at h
  · cases h; omega
  · cases h

@[simp] theorem regAt_offset (r : Reg) : regAt r.offset = some r := by cases r <;> rfl

/-- A register starts exactly at its own offset. -/
theorem regAt_eq_some {off : Nat} {r : Reg} (h : regAt off = some r) : off = r.offset := by
  have := List.find?_some h
  exact (beq_iff_eq.1 this).symm

/-- No register starts at any other offset. -/
theorem regAt_eq_none {off : Nat} : regAt off = none ↔ ¬(off = 0 ∨ off = 4 ∨ off = 8 ∨ off = 0xC ∨ off = 0x10) := by
  simp only [regAt, List.find?_eq_none, beq_iff_eq]
  constructor
  · intro h hoff
    rcases hoff with rfl | rfl | rfl | rfl | rfl
    · exact h .cmd (by simp) rfl
    · exact h .status (by simp) rfl
    · exact h .inlen (by simp) rfl
    · exact h .outlen (by simp) rfl
    · exact h .capr (by simp) rfl
  · intro h r _ hr
    cases r <;> simp_all [Reg.offset]

theorem Reg.offset_lt (r : Reg) : r.offset < 0x40000 := by cases r <;> decide

/-- A 32-bit access at a register's address reaches it. -/
@[simp] theorem regTarget_reg (c : Config) (r : Reg) : regTarget c (c.base + r.offset) = .ok r := by
  simp [regTarget, windowOffset_add c r.offset_lt]

/-- A 32-bit access with a meaning is at a register's address. -/
theorem regTarget_eq_ok {c : Config} {addr : Nat} {r : Reg} (h : regTarget c addr = .ok r) : addr = c.base + r.offset := by
  unfold regTarget at h
  split at h
  · cases h
  · next off hoff =>
    split at h
    · next r' hr =>
      cases h
      rw [← regAt_eq_some hr]
      exact (windowOffset_eq_some hoff).1
    · split at h
      · cases h
      · split at h <;> cases h

/-- The byte of IN at its offset (R53). -/
theorem bufByteAt_in (c : Config) {i : Nat} (h : i < c.cap) : bufByteAt c (inOffset + i) = some (.inByte i) := by
  simp [bufByteAt, h]

/-- The byte of OUT at its offset (R53). -/
theorem bufByteAt_out (c : Config) (hc : c.cap ≤ 65536) {j : Nat} (h : j < c.cap) :
    bufByteAt c (outOffset + j) = some (.outByte j) := by
  simp only [bufByteAt, inOffset, outOffset]
  rw [if_neg (by omega), if_pos (by omega)]
  simp

/-- A buffer byte is at its own offset. -/
theorem bufByteAt_eq_some {c : Config} {off : Nat} {b : BufByte} (h : bufByteAt c off = some b) :
    (∃ i, b = .inByte i ∧ i < c.cap ∧ off = inOffset + i) ∨ (∃ j, b = .outByte j ∧ j < c.cap ∧ off = outOffset + j) := by
  unfold bufByteAt at h
  split at h
  · cases h; exact .inl ⟨_, rfl, by omega, by omega⟩
  · split at h
    · cases h; exact .inr ⟨_, rfl, by omega, by omega⟩
    · cases h

/-- The offsets that hold no buffer byte. -/
theorem bufByteAt_eq_none {c : Config} {off : Nat} : bufByteAt c off = none ↔
    ¬(0x10000 ≤ off ∧ off < 0x10000 + c.cap ∨ 0x20000 ≤ off ∧ off < 0x20000 + c.cap) := by
  unfold bufByteAt inOffset outOffset
  split
  · simp; omega
  · split
    · simp; omega
    · simp; omega

/-- An 8-bit access at a byte of IN reaches it. -/
theorem byteTarget_in (c : Config) (hc : c.cap ≤ 65536) {i : Nat} (h : i < c.cap) :
    byteTarget c (c.base + inOffset + i) = .ok (.inByte i) := by
  have h1 : inOffset + i < 0x40000 := by unfold inOffset; omega
  simp [byteTarget, Nat.add_assoc, windowOffset_add c h1, bufByteAt_in c h]

/-- An 8-bit access at a byte of OUT reaches it. -/
theorem byteTarget_out (c : Config) (hc : c.cap ≤ 65536) {j : Nat} (h : j < c.cap) :
    byteTarget c (c.base + outOffset + j) = .ok (.outByte j) := by
  have h1 : outOffset + j < 0x40000 := by unfold outOffset; omega
  simp [byteTarget, Nat.add_assoc, windowOffset_add c h1, bufByteAt_out c hc h]

/-- An 8-bit access with a meaning is at a byte of IN or of OUT. -/
theorem byteTarget_eq_ok {c : Config} {addr : Nat} {b : BufByte} (h : byteTarget c addr = .ok b) :
    (∃ i, b = .inByte i ∧ i < c.cap ∧ addr = c.base + inOffset + i) ∨
    (∃ j, b = .outByte j ∧ j < c.cap ∧ addr = c.base + outOffset + j) := by
  unfold byteTarget at h
  split at h
  · cases h
  · next off hoff =>
    have ha := (windowOffset_eq_some hoff).1
    split at h
    · next b' hb =>
      cases h
      rcases bufByteAt_eq_some hb with ⟨i, rfl, hi, ho⟩ | ⟨j, rfl, hj, ho⟩
      · exact .inl ⟨i, rfl, hi, by omega⟩
      · exact .inr ⟨j, rfl, hj, by omega⟩
    · split at h <;> cases h

/-! ### The step -/

theorem step_nil {s : State} (h : s.pending = []) : step s = .next s := by
  simp [step, h, waitForHost]

theorem step_cons {s : State} {e : HostEvent} {rest : List HostEvent} (h : s.pending = e :: rest) :
    step s = serve e { s with pending := rest } := by
  simp [step, h]

/-- The host's write of a byte of IN: that byte, and no other (R55). -/
theorem readIn_writeIn {s : State} (h : Memory.wf s.inBuf) (i : Nat) (v : Byte) (k : Nat) :
    readIn (writeIn s i v) k = if k = i then v else readIn s k := by
  simp only [readIn, writeIn, Memory.read_write h]
  split <;> simp

/-- A write of a register always ends (R55, R96). -/
theorem writeReg_next (s : State) (r : Reg) (v : Word) : ∃ t, writeReg s r v = .next t := by
  cases r
  · exact ⟨_, exec_eq _ s⟩
  all_goals exact ⟨_, rfl⟩

/-- A write of a command word to CMD runs the command. -/
theorem serve_commandEvent (s : State) (v : Word) : serve (commandEvent s.config v) s = exec (decode v) s := by
  simp [serve, commandEvent, writeReg]

/-- The very next step of a state with a fetch word placed runs that word's command. -/
theorem step_withFetchWord (s : State) (n w : Nat) :
    step (s.withFetchWord n w) = exec (decode (BitVec.ofNat 32 w)) s := by
  rw [step_cons (s := s.withFetchWord n w) rfl]
  exact serve_commandEvent s _

/-- Everything an event can do, when it has a meaning. -/
theorem serve_cases {e : HostEvent} {s t : State} (h : serve e s = .next t) :
    (∃ v, e = .sw (s.config.base + 0x00000) v ∧ exec (decode v) s = .next t) ∨
    (∃ v, e = .sw (s.config.base + 0x00008) v ∧ t = { s with inlen := v }) ∨
    (∃ r v, r ≠ .cmd ∧ r ≠ .inlen ∧ e = .sw (s.config.base + Reg.offset r) v ∧ t = s) ∨
    (∃ i v, i < s.config.cap ∧ e = .sb (s.config.base + inOffset + i) v ∧ t = writeIn s i v) ∨
    (∃ j v, j < s.config.cap ∧ e = .sb (s.config.base + outOffset + j) v ∧ t = s) ∨
    (∃ r, e = .lw (s.config.base + Reg.offset r) ∧
      t = recordRead s (.lw (s.config.base + Reg.offset r) (readReg s r))) ∨
    (∃ addr b, e = .lb addr ∧ byteTarget s.config addr = .ok b ∧ t = recordRead s (.lb addr (readBufByte s b))) ∨
    (e = .readOutput ∧ t = { s with pending := readOutputExpansion s ++ s.pending }) ∨
    (e = .reset ∧ t = resetEngine s) := by
  cases e with
  | lw addr =>
    simp only [serve] at h
    split at h
    · next r hr =>
      obtain rfl := regTarget_eq_ok hr
      cases h
      exact .inr <| .inr <| .inr <| .inr <| .inr <| .inl ⟨r, rfl, rfl⟩
    · cases h
  | sw addr v =>
    simp only [serve] at h
    split at h
    · next r hr =>
      obtain rfl := regTarget_eq_ok hr
      cases r with
      | cmd => exact .inl ⟨v, rfl, h⟩
      | inlen => cases h; exact .inr <| .inl ⟨v, rfl, rfl⟩
      | status => cases h; exact .inr <| .inr <| .inl ⟨.status, v, by decide, by decide, rfl, rfl⟩
      | outlen => cases h; exact .inr <| .inr <| .inl ⟨.outlen, v, by decide, by decide, rfl, rfl⟩
      | capr => cases h; exact .inr <| .inr <| .inl ⟨.capr, v, by decide, by decide, rfl, rfl⟩
    · cases h
  | lb addr =>
    simp only [serve] at h
    split at h
    · next b hb =>
      cases h
      exact .inr <| .inr <| .inr <| .inr <| .inr <| .inr <| .inl ⟨addr, b, rfl, hb, rfl⟩
    · cases h
  | sb addr v =>
    simp only [serve] at h
    split at h
    · next b hb =>
      rcases byteTarget_eq_ok hb with ⟨i, rfl, hi, rfl⟩ | ⟨j, rfl, hj, rfl⟩
      · cases h; exact .inr <| .inr <| .inr <| .inl ⟨i, v, hi, rfl, rfl⟩
      · cases h; exact .inr <| .inr <| .inr <| .inr <| .inl ⟨j, v, hj, rfl, rfl⟩
    · cases h
  | otherRead addr => cases h
  | otherWrite addr => cases h
  | fetch addr => cases h
  | readOutput => cases h; exact .inr <| .inr <| .inr <| .inr <| .inr <| .inr <| .inr <| .inl ⟨rfl, rfl⟩
  | reset => cases h; exact .inr <| .inr <| .inr <| .inr <| .inr <| .inr <| .inr <| .inr ⟨rfl, rfl⟩

/-- Everything a step can do, when it answers a next state. -/
theorem step_cases {s t : State} (h : step s = .next t) :
    (s.pending = [] ∧ t = s) ∨
    ∃ e rest, s.pending = e :: rest ∧ serve e { s with pending := rest } = .next t := by
  cases hp : s.pending with
  | nil => rw [step_nil hp] at h; cases h; exact .inl ⟨rfl, rfl⟩
  | cons e rest => rw [step_cons hp] at h; exact .inr ⟨e, rest, rfl, h⟩

end Sys2Proof.Machine
end

