-- ==== Sys2Proof/Laws/Cipher.lean ====
section
/-! SUPPORT. One iteration of the block transforms (42_round_function.md R123, R125), and of
the key schedule's steps (41_key_schedule.md R104 to R106). -/

namespace Sys2Proof.Machine

/-- The iteration of R125 undoes that of R123, on the same subkeys. -/
@[simp] theorem decryptIteration_encryptIteration (cs : CipherState) (r : Nat) (b : Block) :
    decryptIteration cs (encryptIteration cs b r) r = b := by
  simp [decryptIteration, encryptIteration, BitVec.xor_assoc]

/-- The iteration of R123 undoes that of R125, on the same subkeys. -/
@[simp] theorem encryptIteration_decryptIteration (cs : CipherState) (r : Nat) (b : Block) :
    encryptIteration cs (decryptIteration cs b r) r = b := by
  simp [decryptIteration, encryptIteration, BitVec.xor_assoc]

/-- An index below 20 reads that word of P (R22, R63). -/
theorem subkey_eq (cs : CipherState) {i : Nat} (h : i < 20) : subkey cs i = cs.p[i] := by
  simp [subkey, h]

/-- The loop indices of R123 are 0, 2, ..., 14 (R122). -/
theorem evensBelow_nr : evensBelow Config.nr = [0, 2, 4, 6, 8, 10, 12, 14] := rfl

/-- Every subkey index of the block transforms is in range (R63). -/
theorem subkey_indices_in_range : ∀ r ∈ evensBelow Config.nr, r + 1 < 20 := by decide

/-- Key mixing leaves S0 alone (R104). -/
@[simp] theorem mixKey_s0 (cs : CipherState) (k : Vector Byte 16) : (mixKey cs k).s0 = cs.s0 := by simp only [mixKey]

/-- Key mixing leaves S1 alone (R104). -/
@[simp] theorem mixKey_s1 (cs : CipherState) (k : Vector Byte 16) : (mixKey cs k).s1 = cs.s1 := by simp only [mixKey]

/-- A pair goes over the two words named, and over no other (R105). -/
theorem getElem_setPair {n : Nat} (v : Vector Word n) (k : Nat) (b : Block) (i : Fin n) :
    (setPair v k b)[i] = if i.val = k then b.1 else if i.val = k + 1 then b.2 else v[i] := by
  simp only [setPair, Fin.getElem_fin, Vector.getElem_setIfInBounds]
  by_cases h1 : k + 1 = i.val
  · rw [if_pos h1, if_neg (by omega), if_pos (by omega)]
  · rw [if_neg h1]
    by_cases h2 : k = i.val
    · rw [if_pos h2, if_pos (by omega)]
    · rw [if_neg h2, if_neg (by omega), if_neg (by omega)]

/-- An iteration's output is the encryption on the tables as they were (R106). -/
@[simp] theorem bootstrapIteration_block (t : Table) (st : CipherState × Block) (i : Nat) :
    (bootstrapIteration t st i).2 = encryptBlock st.1 st.2 := rfl

/-- An iteration's tables are the old ones with its output stored (R105). -/
@[simp] theorem bootstrapIteration_tables (t : Table) (st : CipherState × Block) (i : Nat) :
    (bootstrapIteration t st i).1 = storePair st.1 t i (encryptBlock st.1 st.2) := rfl

/-- The indices below `2 * (n + 1)` end with `2 * n` (R105). -/
theorem evensBelow_succ (n : Nat) : evensBelow (2 * (n + 1)) = evensBelow (2 * n) ++ [2 * n] := by
  simp only [evensBelow]
  rw [Nat.mul_div_cancel_left _ (by decide), Nat.mul_div_cancel_left _ (by decide), List.range_succ, List.map_append]
  rfl

/-- One more bootstrap iteration over a table (R105). -/
theorem bootstrapTable_succ (t : Table) (n : Nat) (st : CipherState × Block) :
    bootstrapTable t (2 * (n + 1)) st = bootstrapIteration t (bootstrapTable t (2 * n) st) (2 * n) := by
  simp [bootstrapTable, evensBelow_succ]

end Sys2Proof.Machine
end

