-- ==== Sys2Proof/Laws/PerInstr.lean ====
section
/-! SUPPORT. Per-instruction family CommandFields: the word of an instruction has the fields the opcode table gives its row
(30_encoding.md R70, R72, R73). -/

namespace Sys2Proof.Laws.CommandFields

/-- OP and MBZ of an instruction's row. -/
def fieldsOf : Instr → BitVec 4 × BitVec 28
  | .keyset => (0x1, 0)
  | .encrypt => (0x2, 0)
  | .decrypt => (0x3, 0)
  | .illegal op mbz => (op, mbz)

/-- The fields stand in the word where R70 puts them. -/
def Statement (i : Instr) : Prop := opField (encode i) = (fieldsOf i).1 ∧ mbzField (encode i) = (fieldsOf i).2

/-- A word built from fields has those fields. -/
theorem fields_commandWord (op : BitVec 4) (mbz : BitVec 28) :
    opField (commandWord op mbz) = op ∧ mbzField (commandWord op mbz) = mbz := by
  constructor <;>
    (apply BitVec.eq_of_getLsbD_eq
     intro i hi
     simp only [opField, mbzField, commandWord, BitVec.getLsbD_append, BitVec.getLsbD_extractLsb']
     simp [hi])

theorem keyset : Statement .keyset := fields_commandWord _ _

theorem encrypt : Statement .encrypt := fields_commandWord _ _

theorem decrypt : Statement .decrypt := fields_commandWord _ _

theorem illegal (op : BitVec 4) (mbz : BitVec 28) : Statement (.illegal op mbz) := fields_commandWord _ _

end Sys2Proof.Laws.CommandFields
end

