-- ==== Sys2Proof/Tests/Slice0.lean ====
section
/-! SUPPORT. Small tests with results taken from the spec (95_test_vectors.md, named by its ids), and for every statement of
Certificates/Slice0/Obligations.lean with premises a witness: a concrete state and operands that meet them together. -/

namespace Sys2Proof.Tests

open Sys2Proof Sys2Proof.Machine

/-! ### Small states -/

/-- All P and S words 0: encryptBlock and decryptBlock only swap the halves (42_round_function.md R123). -/
def zeroCipher : CipherState :=
  { p := Vector.replicate 20 0, s0 := Vector.replicate 256 0, s1 := Vector.replicate 256 0 }

/-- T-F: S0[i] = i and S1[i] = i << 8. -/
def identityCipher : CipherState :=
  { zeroCipher with
    s0 := Vector.ofFn fun i => BitVec.ofNat 32 i.val
    s1 := Vector.ofFn fun i => BitVec.ofNat 32 (i.val * 2 ^ 8) }

/-- T-F-8: S0 all ones, S1 all 1. -/
def wrapCipher : CipherState :=
  { zeroCipher with s0 := Vector.replicate 256 0xFFFFFFFF, s1 := Vector.replicate 256 1 }

/-- T-BLK-3. -/
def traceCipher : CipherState :=
  { identityCipher with
    p := ((zeroCipher.p.set 0 0x01020304).set 18 0xA0000000).set 19 0x0B000000 }

/-- The key "ABCDEFGHIJKLMNOP". -/
def alphabetKey : Vector Byte 16 := Vector.ofFn fun i => BitVec.ofNat 8 (0x41 + i.val)

/-- After reset, with the given input bytes, input length and events to come. -/
def withInput (input : List Byte) (inlen : Word) (pending : List HostEvent) : State :=
  { State.reset with cipher := zeroCipher, inBuf := Memory.ofBytesFrom 0 input, inlen := inlen, pending := pending }

/-- The same, keyed with the zero tables. -/
def keyedWith (input : List Byte) (inlen : Word) (pending : List HostEvent) : State :=
  { withInput input inlen pending with keyed := true }

/-- ERR, KEYED, OUTLEN and the output of an outcome, if it is a next state. -/
def summary (o : Host.Outcome State Fault Refusal) : Option (BitVec 3 × Bool × Word × List Byte) :=
  match o with
  | .next s => some (s.err, s.keyed, s.outlen, outputBytes s)
  | .fault _ => none
  | .refused _ => none

/-- The refusal of an outcome, if it is one. -/
def refusalOf (o : Host.Outcome State Fault Refusal) : Option Refusal :=
  match o with
  | .next _ => none
  | .fault _ => none
  | .refused r => some r

/-! ### Well-formedness: a smoke test with ill-formed terms -/

theorem test_wf_refuses_legal_words_as_illegal :
    (Instr.illegal 0x1 0).wf = false ∧ (Instr.illegal 0x2 0).wf = false ∧ (Instr.illegal 0x3 0).wf = false := by decide

theorem test_wf_accepts :
    Instr.keyset.wf = true ∧ Instr.encrypt.wf = true ∧ Instr.decrypt.wf = true ∧
    (Instr.illegal 0x0 0).wf = true ∧ (Instr.illegal 0x2 1).wf = true := by decide

theorem test_config_wf_refuses :
    ¬ ({ defaultConfig with cap := 20 } : Config).wf ∧ ¬ ({ defaultConfig with cap := 8 } : Config).wf ∧
    ¬ ({ defaultConfig with cap := 65544 } : Config).wf ∧ ¬ ({ defaultConfig with base := 0x10000 } : Config).wf := by decide

theorem test_memory_wf_refuses : ¬ Memory.wf [(3, 0x5A), (3, 0x5B)] ∧ ¬ Memory.wf [(4, 0), (3, 0)] := by decide

/-! ### Decoding (T-ENC-1 to T-ENC-8) -/

theorem test_decode_keyset : decode 0b00000000000000000000000000000001 = .keyset := by decide

theorem test_decode_encrypt : decode 0b00000000000000000000000000000010 = .encrypt := by decide

theorem test_decode_decrypt : decode 0b00000000000000000000000000000011 = .decrypt := by decide

theorem test_decode_illegal :
    decode 0b00000000000000000000000000000000 = .illegal 0b0000 0 ∧
    decode 0b00000000000000000000000000010010 = .illegal 0b0010 1 ∧
    decode 0b00010000000000000000000000000010 = .illegal 0b0010 0x1000000 := by decide

theorem test_decodeTableWord :
    decodeTableWord 32 1 = some .keyset ∧ decodeTableWord 32 0 = some (.illegal 0 0) ∧
    decodeTableWord 32 0x80000001 = some (.illegal 1 0x8000000) := by decide

/-- The step of a fetch word runs it (T-CMD-1, T-CMD-3 and an illegal word, from reset). -/
theorem test_fetch_keyset : summary (step (State.reset.withFetchWord 32 1)) = some (1, false, 0, []) := by decide

theorem test_fetch_encrypt : summary (step (State.reset.withFetchWord 32 2)) = some (4, false, 0, []) := by decide

theorem test_fetch_decrypt : summary (step (State.reset.withFetchWord 32 3)) = some (4, false, 0, []) := by decide

theorem test_fetch_illegal : summary (step (State.reset.withFetchWord 32 4)) = some (5, false, 0, []) := by decide

/-! ### The round function and the block transforms -/

/-- T-F-4, T-F-5, T-F-6. -/
theorem test_roundF_identity_boxes :
    roundF identityCipher 0xFFFFFFFF = 0x0001FE00 ∧ roundF identityCipher 0x80FF7F01 = 0x000100FF ∧
    roundF identityCipher 0x00000100 = 0x00000001 := by decide +kernel

/-- T-F-8. -/
theorem test_roundF_wraps : roundF wrapCipher 0xDEADBEEF = 0 := by decide +kernel

/-- T-BLK-1. -/
theorem test_block_swap :
    encryptBlock zeroCipher (0x01234567, 0x89ABCDEF) = (0x89ABCDEF, 0x01234567) ∧
    decryptBlock zeroCipher (0x89ABCDEF, 0x01234567) = (0x01234567, 0x89ABCDEF) := by decide +kernel

/-- T-BLK-3. -/
theorem test_block_trace :
    encryptBlock traceCipher (0, 0) = (0x0B000202, 0xA1020300) ∧
    decryptBlock traceCipher (0x0B000202, 0xA1020300) = (0, 0) := by decide +kernel

/-! ### The key schedule -/

/-- T-KS-0, seeding. -/
theorem test_seed :
    (seedTables piWords).s0[20] = 0x243F6A88 ∧ (seedTables piWords).s0[255] = 0xB5470917 ∧
    (seedTables piWords).s1[0] = 0x9216D5D9 ∧ (seedTables piWords).s1[255] = 0x34E90C6C := by decide +kernel

/-- T-KS-1: P after mixing, and the first bootstrap output. -/
theorem test_first_bootstrap_output :
    (mixKey (seedTables piWords) alphabetKey).p[1] = 0xC0E54F9B ∧
    (mixKey (seedTables piWords) alphabetKey).p[18] = 0x987B40EA ∧
    (bootstrapTable .p 2 (mixKey (seedTables piWords) alphabetKey, (0, 0))).1.p[0] = 0x55B9CEB3 ∧
    (bootstrapTable .p 2 (mixKey (seedTables piWords) alphabetKey, (0, 0))).1.p[1] = 0x4AAA6D2A := by decide +kernel

/-! ### Padding -/

/-- T-PAD-1, T-PAD-3, T-PAD-4. -/
theorem test_pad :
    pad [] = [8, 8, 8, 8, 8, 8, 8, 8] ∧ pad [0x41, 0x42, 0x43] = [0x41, 0x42, 0x43, 5, 5, 5, 5, 5] ∧
    pad [1, 2, 3, 4, 5, 6, 7] = [1, 2, 3, 4, 5, 6, 7, 1] := by decide

/-- T-UNP-2, T-UNP-4 to T-UNP-6, T-UNP-9, T-UNP-10, T-UNP-12. -/
theorem test_unpad :
    unpad [8, 8, 8, 8, 8, 8, 8, 8] = some [] ∧ unpad [1, 2, 3, 4, 5, 6, 7, 0] = none ∧
    unpad [1, 2, 3, 4, 5, 6, 7, 9] = none ∧ unpad [1, 2, 3, 4, 5, 3, 2, 3] = none ∧ unpad [] = none ∧
    unpad [1] = some [] ∧ unpad [2, 2, 2, 2, 2, 2, 2, 2] = some [2, 2, 2, 2, 2, 2] := by decide

/-! ### The commands -/

/-- R108: STATUS is ERR = 0 and KEYED = 1, OUTLEN = 0. -/
theorem test_keyset_binds : summary (exec .keyset (withInput [] 16 [])) = some (0, true, 0, []) := by decide

/-- T-CMD-4: the binding stays. -/
theorem test_keyset_length : summary (exec .keyset (keyedWith [] 17 [])) = some (1, true, 0, []) := by decide

/-- "ABC" under the zero tables: the padded block with its halves swapped (R142, R123). -/
theorem test_encrypt : summary (exec .encrypt (keyedWith [0x41, 0x42, 0x43] 3 [])) =
    some (0, true, 8, [5, 5, 5, 5, 0x41, 0x42, 0x43, 5]) := by decide +kernel

/-- T-CMD-8: CAP - 7 bytes. -/
theorem test_encrypt_capacity : summary (exec .encrypt (keyedWith [] 57 [])) = some (6, true, 0, []) := by decide

/-- The way back. -/
theorem test_decrypt : summary (exec .decrypt (keyedWith [5, 5, 5, 5, 0x41, 0x42, 0x43, 5] 8 [])) =
    some (0, true, 3, [0x41, 0x42, 0x43]) := by decide +kernel

/-- T-CMD-11: capacity before length. -/
theorem test_decrypt_priority : summary (exec .decrypt (keyedWith [] 73 [])) = some (6, true, 0, []) := by decide

/-- T-CMD-15. -/
theorem test_illegal : summary (exec (decode 0x10000002) (keyedWith [] 3 [])) = some (5, true, 0, []) := by decide

/-! ### The window -/

/-- T-MEM-8. -/
theorem test_refused :
    refusalOf (step (withInput [] 0 [.lw 0x10000])) = some .accessWidth ∧
    refusalOf (step (withInput [] 0 [.lb 0x00004])) = some .accessWidth ∧
    refusalOf (step (withInput [] 0 [.sw 0x00002 1])) = some .misaligned ∧
    refusalOf (step (withInput [] 0 [.lw 0x00014])) = some .reservedOffset ∧
    refusalOf (step (withInput [] 0 [.lb 0x20040])) = some .reservedOffset := by decide

/-- T-MEM-2, T-MEM-3, T-MEM-6: CAPR, CMD and a byte of IN read back. -/
theorem test_reads :
    (match core.run 4 (withInput [] 0 [.lw 0x10, .lw 0, .sb 0x10003 0x5A, .lb 0x10003]) with
      | .next s => s.reads
      | .fault _ => []
      | .refused _ => []) = [.lw 0x10 64, .lw 0 0, .lb 0x10003 0x5A] := by decide

/-- The reset event (T-RST-1). -/
theorem test_reset_event :
    summary (step (keyedWith [] 8 [.reset])) = some (0, false, 0, []) := by decide

/-! ### Witnesses: the premises of each statement hold together somewhere -/

theorem witness_DecodeAndEncodeAreInverse : (Instr.illegal 0xF 0xFFFFFFF).wf = true := by decide

theorem witness_CommandWriteRunsDecodedCommand :
    (withInput [] 16 [.sw 0 1]).pending = .sw ((withInput [] 16 [.sw 0 1]).config.base + 0x00000) 1 :: [] := by decide

theorem witness_RoundFunctionOnBytes :
    (0x01FF0304 : Word).toNat = (1 : Fin 256).val * 2 ^ 24 + (255 : Fin 256).val * 2 ^ 16 + (3 : Fin 256).val * 2 ^ 8 +
      (4 : Fin 256).val ∧
    (∀ i : Fin 256, zeroCipher.s0[i] = 0 ∧ zeroCipher.s1[i] = 0) ∧
    (∀ i : Fin 256, wrapCipher.s0[i] = 0xFFFFFFFF ∧ wrapCipher.s1[i] = 1) ∧
    (∀ i : Fin 256, identityCipher.s0[i] = BitVec.ofNat 32 i.val ∧
      identityCipher.s1[i] = BitVec.ofNat 32 (i.val * 2 ^ 8)) :=
  ⟨by decide, fun i => by simp [zeroCipher], fun i => by simp [wrapCipher], fun i => by simp [identityCipher]⟩

/-- The halves of T-BLK-3 after each iteration, from its table. -/
def traceL (i : Nat) : Word :=
  [0, 0x01020102, 0x01020300, 0x01020300, 0x01020102, 0x01020304, 0x01020304, 0x01020102, 0x01020300].getD i 0

def traceR (i : Nat) : Word :=
  [0, 0x00000602, 0x00000202, 0x00000000, 0x00000202, 0x00000602, 0x00000000, 0x00000602, 0x00000202].getD i 0

theorem witness_EncryptBlockRunsRoundsThenMixesAndSwaps : ∀ i : Fin 9, i.val < 8 →
    traceR (i.val + 1) =
      traceR i.val ^^^ roundF traceCipher (traceL i.val ^^^ traceCipher.p[2 * i.val]) ^^^ traceCipher.p[2 * i.val + 1] ∧
    traceL (i.val + 1) = traceL i.val ^^^ traceCipher.p[2 * i.val] ^^^ roundF traceCipher (traceR (i.val + 1)) := by
  decide +kernel

theorem witness_DecryptBlockRunsRoundsBackwards :
    traceL 8 = 0xA1020300 ^^^ traceCipher.p[18] ∧ traceR 8 = 0x0B000202 ^^^ traceCipher.p[19] ∧
    ∀ i : Fin 9, i.val < 8 →
      traceR i.val = traceR (i.val + 1) ^^^ traceCipher.p[2 * i.val + 1] ^^^
        roundF traceCipher (traceL (i.val + 1) ^^^ roundF traceCipher (traceR (i.val + 1))) ∧
      traceL i.val = traceL (i.val + 1) ^^^ roundF traceCipher (traceR (i.val + 1)) ^^^ traceCipher.p[2 * i.val] := by
  decide +kernel

theorem witness_SeedingIsCyclic :
    (15 : Fin 20).val = (255 : Fin 256).val % 20 ∧ (11 : Fin 20).val = (256 + (255 : Fin 256).val) % 20 := by decide

theorem witness_KeyWordsAreBigEndian : ∀ i : Fin 16, alphabetKey[i] = BitVec.ofNat 8 (0x41 + i.val) := by decide

theorem witness_KeyMixingIsCyclic : (3 : Fin 4).val = (19 : Fin 20).val % 4 := by decide

theorem witness_KeyScheduleDependsOnKeyAlone :
    ∃ s s' t t' : State, s.cipher ≠ s'.cipher ∧ s.keyed ≠ s'.keyed ∧ s.inlen = 16 ∧ s'.inlen = 16 ∧
      s.config.constTable = s'.config.constTable ∧ (∀ i, i < 16 → readIn s i = readIn s' i) ∧
      exec .keyset s = .next t ∧ exec .keyset s' = .next t' :=
  ⟨withInput [7] 16 [], { keyedWith [7] 16 [] with cipher := wrapCipher }, _, _,
    by decide +kernel, by decide, rfl, rfl, rfl, fun _ _ => rfl, exec_eq _ _, exec_eq _ _⟩

/-- A pad of the greatest and one of the least length (T-UNP-2, T-UNP-10). -/
theorem witness_UnpadIsStrict :
    unpad ([8, 8, 8, 8, 8, 8, 8] ++ [8]) = some [] ∧ unpad ([] ++ [1]) = some [] := by decide

theorem witness_UnpadInvertsPad :
    0 < [8, 8, 8, 8, 8, 8, 8, (8 : Byte)].length ∧ [8, 8, 8, 8, 8, 8, 8, (8 : Byte)].length % 8 = 0 := by decide

theorem witness_EncryptStreamIsBlockwise :
    1 < (pad [1, 2, 3, 4, 5, 6, 7, 8]).length / 8 ∧
    packBlock (0x08080808, 0x08080808) = ((pad [1, 2, 3, 4, 5, 6, 7, 8]).drop (8 * 1)).take 8 ∧
    0 < (pad []).length / 8 ∧ packBlock (0x08080808, 0x08080808) = ((pad []).drop (8 * 0)).take 8 := by decide

/-- One block deciphers to a valid pad, another to a bad one; and a length that is no multiple of 8. -/
theorem witness_DecryptStreamIsBlockwise :
    ([] : List Byte).length = 0 ∧ [1, 2, 3, 4, (5 : Byte)].length % 8 ≠ 0 ∧
    (∀ (q : Nat) (b : Block), q < [5, 5, 5, 5, 0x41, 0x42, 0x43, (5 : Byte)].length / 8 →
      packBlock b = ([5, 5, 5, 5, 0x41, 0x42, 0x43, (5 : Byte)].drop (8 * q)).take 8 →
      ([0x41, 0x42, 0x43, 5, 5, 5, 5, (5 : Byte)].drop (8 * q)).take 8 = packBlock (decryptBlock zeroCipher b)) ∧
    unpad [0x41, 0x42, 0x43, 5, 5, 5, 5, 5] = some [0x41, 0x42, 0x43] ∧
    (∀ (q : Nat) (b : Block), q < [0, 0, 0, 0, 0, 0, 0, (0 : Byte)].length / 8 →
      packBlock b = ([0, 0, 0, 0, 0, 0, 0, (0 : Byte)].drop (8 * q)).take 8 →
      ([0, 0, 0, 0, 0, 0, 0, (0 : Byte)].drop (8 * q)).take 8 = packBlock (decryptBlock zeroCipher b)) ∧
    unpad [0, 0, 0, 0, 0, 0, 0, 0] = none := by
  have hq : ∀ q : Nat, q < 8 / 8 → q = 0 := fun q h => by omega
  have hb : ∀ b b' : Block, packBlock b = packBlock b' → b = b' := by
    intro b b' h
    have e := congrArg (fun l : List Byte =>
      (be32 (l.getD 0 0) (l.getD 1 0) (l.getD 2 0) (l.getD 3 0), be32 (l.getD 4 0) (l.getD 5 0) (l.getD 6 0) (l.getD 7 0))) h
    simpa [packBlock_eq, List.getD] using e
  refine ⟨rfl, by decide, ?_, by decide, ?_, by decide⟩
  · intro q b h1 h2
    obtain rfl := hq q h1
    rw [hb b (0x05050505, 0x41424305) (h2.trans (by decide))]
    decide +kernel
  · intro q b h1 h2
    obtain rfl := hq q h1
    rw [hb b (0, 0) (h2.trans (by decide))]
    decide +kernel

theorem witness_KeysetBindsTheKey : (withInput [] 16 []).inlen = 16 ∧ (keyedWith [] 16 []).inlen = 16 := by decide

theorem witness_KeysetRejectsOtherLengths :
    (withInput [] 15 []).inlen ≠ 16 ∧ (withInput [] 17 []).inlen ≠ 16 ∧
    ∃ t, exec .keyset (withInput [] 17 []) = .next t ∧ t.err ≠ 0 :=
  ⟨by decide, by decide, _, exec_eq _ _, by decide⟩

/-- INLEN at both ends of its range: 0 and CAP - 8 (T-CMD-7). -/
theorem witness_EncryptCompletes :
    (keyedWith [] 0 []).config.wf ∧ (keyedWith [] 0 []).keyed = true ∧
    (keyedWith [] 0 []).inlen.toNat ≤ (keyedWith [] 0 []).config.cap - 8 ∧
    (keyedWith [] 56 []).inlen.toNat ≤ (keyedWith [] 56 []).config.cap - 8 := by decide

/-- Not keyed (T-CMD-1); CAP - 7 bytes (T-CMD-8); 0xFFFFFFFF bytes (T-CMD-12). -/
theorem witness_EncryptErrorsInOrder :
    (withInput [] 0 []).keyed = false ∧ (keyedWith [] 57 []).keyed = true ∧
    (keyedWith [] 57 []).config.cap - 8 < (keyedWith [] 57 []).inlen.toNat ∧
    (keyedWith [] 0xFFFFFFFF []).config.cap - 8 < (keyedWith [] 0xFFFFFFFF []).inlen.toNat ∧
    ∃ t, exec .encrypt (keyedWith [] 57 []) = .next t :=
  ⟨by decide, by decide, by decide, by decide, _, exec_eq _ _⟩

/-- Three bytes of plaintext; and the empty plaintext, whose ciphertext has 8 bytes. -/
theorem witness_DecryptCompletes :
    (keyedWith [5, 5, 5, 5, 0x41, 0x42, 0x43, 5] 8 []).keyed = true ∧
    (keyedWith [5, 5, 5, 5, 0x41, 0x42, 0x43, 5] 8 []).inlen.toNat ≤
      (keyedWith [5, 5, 5, 5, 0x41, 0x42, 0x43, 5] 8 []).config.cap ∧
    decryptStream zeroCipher ((List.range 8).map (readIn (keyedWith [5, 5, 5, 5, 0x41, 0x42, 0x43, 5] 8 []))) =
      .ok [0x41, 0x42, 0x43] ∧
    decryptStream zeroCipher ((List.range 8).map (readIn (keyedWith [8, 8, 8, 8, 8, 8, 8, 8] 8 []))) = .ok [] :=
  ⟨rfl, by decide, by decide +kernel, by decide +kernel⟩

/-- Not keyed (T-CMD-2); 65 bytes; 0 and 5 bytes (T-CMD-5, T-CMD-6); a pad byte of 0. -/
theorem witness_DecryptErrorsInOrder :
    (withInput [] 5 []).keyed = false ∧
    ((keyedWith [] 65 []).keyed = true ∧ (keyedWith [] 65 []).config.cap < (keyedWith [] 65 []).inlen.toNat) ∧
    ((keyedWith [] 0 []).inlen.toNat ≤ (keyedWith [] 0 []).config.cap ∧ (keyedWith [] 0 []).inlen = 0) ∧
    ((keyedWith [] 5 []).inlen.toNat ≤ (keyedWith [] 5 []).config.cap ∧ (keyedWith [] 5 []).inlen.toNat % 8 ≠ 0) ∧
    ((keyedWith [0, 0, 0, 0, 0, 0, 0, 0] 8 []).inlen ≠ 0 ∧ (keyedWith [0, 0, 0, 0, 0, 0, 0, 0] 8 []).inlen.toNat % 8 = 0 ∧
      decryptStream zeroCipher ((List.range 8).map (readIn (keyedWith [0, 0, 0, 0, 0, 0, 0, 0] 8 []))) =
        .error .invalidPadding) ∧
    ∃ t, exec .decrypt (keyedWith [] 5 []) = .next t :=
  ⟨rfl, by decide, by decide, by decide, ⟨by decide, by decide, by decide +kernel⟩, _, exec_eq _ _⟩

theorem witness_IllegalWordsCompleteWithError :
    (0 : Word) ≠ 1 ∧ (0 : Word) ≠ 2 ∧ (0 : Word) ≠ 3 ∧ (4 : Word) ≠ 1 ∧ (4 : Word) ≠ 2 ∧ (4 : Word) ≠ 3 ∧
    (keyedWith [] 0 [.sw 0 4]).pending = .sw ((keyedWith [] 0 [.sw 0 4]).config.base + 0x00000) 4 :: [] := by decide

theorem witness_EveryErrorLeavesTheBinding :
    ∃ t, exec .encrypt (withInput [] 0 []) = .next t ∧ t.err ≠ 0 := ⟨_, exec_eq _ _, by decide⟩

theorem witness_CommandsNeitherWriteInNorReadOut :
    ∃ s s' t t' : State, s.outlen ≠ s'.outlen ∧ s' = { s with outBuf := s'.outBuf, outlen := s'.outlen } ∧
      exec .encrypt s = .next t ∧ exec .encrypt s' = .next t' :=
  ⟨keyedWith [1] 1 [], { keyedWith [1] 1 [] with outBuf := [(0, 9)], outlen := 1 }, _, _,
    by decide, rfl, exec_eq _ _, exec_eq _ _⟩

/-- Two states that differ in IN beyond INLEN, for each of the two commands. -/
theorem witness_StreamCommandsAreStateless :
    ∀ i : Instr, i = .encrypt ∨ i = .decrypt →
      ∃ s s' t t' : State, s.inBuf ≠ s'.inBuf ∧ s.cipher = s'.cipher ∧ s.keyed = s'.keyed ∧ s.inlen = s'.inlen ∧
        s.config.cap = s'.config.cap ∧ (∀ j, j < s.inlen.toNat → readIn s j = readIn s' j) ∧
        exec i s = .next t ∧ exec i s' = .next t' :=
  fun _ _ => ⟨keyedWith [1, 2] 1 [], keyedWith [1, 3] 1 [], _, _, by decide, rfl, rfl, rfl, rfl, by decide,
    exec_eq _ _, exec_eq _ _⟩

theorem witness_RetryGivesTheSameError :
    ∃ t u, exec .encrypt (withInput [] 0 []) = .next t ∧ t.err ≠ 0 ∧ exec .encrypt t = .next u :=
  ⟨_, _, exec_eq _ _, by decide, exec_eq _ _⟩

/-- OUTLEN = 8 after ENCRYPT of nothing: index 7 is below it, index 8 is not. -/
theorem witness_OutSpecifiedExactlyBelowOutlen :
    (keyedWith [] 0 []).config.wf ∧ ∃ t, exec .encrypt (keyedWith [] 0 []) = .next t ∧ t.outlen.toNat = 8 :=
  ⟨by decide, _, exec_eq _ _, by decide +kernel⟩

/-- IN and INLEN of the second state are OUT and OUTLEN of the first (test_encrypt). -/
theorem witness_EncryptThenDecryptGivesThePlaintext :
    ∃ s t u : State, s.config.wf ∧ s.keyed = true ∧ s.inlen.toNat ≤ s.config.cap - 8 ∧ exec .encrypt s = .next t ∧
      u.config = t.config ∧ u.cipher = t.cipher ∧ u.keyed = t.keyed ∧ u.inlen = t.outlen ∧
      (∀ j, j < t.outlen.toNat → readIn u j = readOut t j) :=
  ⟨keyedWith [0x41, 0x42, 0x43] 3 [], _, keyedWith [5, 5, 5, 5, 0x41, 0x42, 0x43, 5] 8 [],
    by decide, rfl, by decide, exec_eq _ _, rfl, rfl, rfl, by decide +kernel, by decide +kernel⟩

theorem witness_UnkeyedTablesAreNeverObserved :
    ∃ s s' t t' : State, s.cipher ≠ s'.cipher ∧ s.keyed = false ∧ s'.keyed = false ∧ s.config = s'.config ∧
      s.inlen = s'.inlen ∧ (∀ j, readIn s j = readIn s' j) ∧ exec .keyset s = .next t ∧ exec .keyset s' = .next t' :=
  ⟨withInput [7] 16 [], { withInput [7] 16 [] with cipher := wrapCipher }, _, _,
    by decide +kernel, rfl, rfl, rfl, rfl, fun _ => rfl, exec_eq _ _, exec_eq _ _⟩

theorem witness_HostAccessesNeverReadTheTables :
    (∀ v rest, (keyedWith [] 0 [.lw 4]).pending ≠ .sw ((keyedWith [] 0 [.lw 4]).config.base + 0x00000) v :: rest) ∧
    (∀ rest, (keyedWith [] 0 [.lw 4]).pending ≠ .reset :: rest) ∧ ∃ t, step (keyedWith [] 0 [.lw 4]) = .next t :=
  ⟨(fun _ _ h => by cases h), (fun _ h => by cases h), _, rfl⟩

theorem witness_StatusFields : (0 : Nat) < 32 ∧ (31 : Nat) < 32 ∧ 3 ≤ 31 ∧ 31 ≠ 8 := by decide

/-- Each register, at its offset. -/
theorem witness_RegisterReadsReturnTheirValue :
    (withInput [] 9 [.lw 0x0]).pending = .lw ((withInput [] 9 [.lw 0x0]).config.base + 0x0) :: [] ∧
    (withInput [] 9 [.lw 0x4]).pending = .lw ((withInput [] 9 [.lw 0x4]).config.base + 0x4) :: [] ∧
    (withInput [] 9 [.lw 0x8]).pending = .lw ((withInput [] 9 [.lw 0x8]).config.base + 0x8) :: [] ∧
    (withInput [] 9 [.lw 0xC]).pending = .lw ((withInput [] 9 [.lw 0xC]).config.base + 0xC) :: [] ∧
    (withInput [] 9 [.lw 0x10]).pending = .lw ((withInput [] 9 [.lw 0x10]).config.base + 0x10) :: [] := by decide

theorem witness_RegisterWritesStoreOrAreIgnored :
    (withInput [] 9 [.sw 0x8 7]).pending = .sw ((withInput [] 9 [.sw 0x8 7]).config.base + 0x8) 7 :: [] ∧
    (withInput [] 9 [.sw 0x4 7]).pending = .sw ((withInput [] 9 [.sw 0x4 7]).config.base + 0x4) 7 :: [] ∧
    (withInput [] 9 [.sw 0xC 7]).pending = .sw ((withInput [] 9 [.sw 0xC 7]).config.base + 0xC) 7 :: [] ∧
    (withInput [] 9 [.sw 0x10 7]).pending = .sw ((withInput [] 9 [.sw 0x10 7]).config.base + 0x10) 7 :: [] := by decide

/-- The first and the last byte of each buffer. -/
theorem witness_BufferAccessesReachTheirByte :
    (withInput [1] 0 []).config.wf ∧ Memory.wf (withInput [1] 0 []).inBuf ∧ 63 < (withInput [1] 0 []).config.cap ∧
    (withInput [1] 0 [.sb 0x10000 2]).pending = .sb ((withInput [1] 0 []).config.base + 0x10000 + 0) 2 :: [] ∧
    (withInput [1] 0 [.sb 0x1003F 2]).pending = .sb ((withInput [1] 0 []).config.base + 0x10000 + 63) 2 :: [] ∧
    (withInput [1] 0 [.sb 0x20000 2]).pending = .sb ((withInput [1] 0 []).config.base + 0x20000 + 0) 2 :: [] ∧
    (withInput [1] 0 [.sb 0x2003F 2]).pending = .sb ((withInput [1] 0 []).config.base + 0x20000 + 63) 2 :: [] ∧
    (withInput [1] 0 [.lb 0x10000]).pending = .lb ((withInput [1] 0 []).config.base + 0x10000 + 0) :: [] ∧
    (withInput [1] 0 [.lb 0x1003F]).pending = .lb ((withInput [1] 0 []).config.base + 0x10000 + 63) :: [] ∧
    (withInput [1] 0 [.lb 0x20000]).pending = .lb ((withInput [1] 0 []).config.base + 0x20000 + 0) :: [] ∧
    (withInput [1] 0 [.lb 0x2003F]).pending = .lb ((withInput [1] 0 []).config.base + 0x20000 + 63) :: [] := by decide

/-- Offsets where an access has a meaning, and the first ones where it has none. -/
theorem witness_OtherAccessesAreRefused :
    (withInput [] 0 []).config.wf ∧ 0x3FFFF < 0x40000 ∧
    (withInput [] 0 [.lw 0x10]).pending = .lw ((withInput [] 0 []).config.base + 0x10) :: [] ∧
    (withInput [] 0 [.lw 0x14]).pending = .lw ((withInput [] 0 []).config.base + 0x14) :: [] ∧
    (withInput [] 0 [.sb 0x1003F 0]).pending = .sb ((withInput [] 0 []).config.base + 0x1003F) 0 :: [] ∧
    (withInput [] 0 [.sb 0x10040 0]).pending = .sb ((withInput [] 0 []).config.base + 0x10040) 0 :: [] ∧
    (withInput [] 0 [.lb 0x3FFFF]).pending = .lb ((withInput [] 0 []).config.base + 0x3FFFF) :: [] ∧
    (withInput [] 0 [.otherRead 0]).pending = .otherRead ((withInput [] 0 []).config.base + 0) :: [] ∧
    (withInput [] 0 [.otherWrite 0x10000]).pending = .otherWrite ((withInput [] 0 []).config.base + 0x10000) :: [] ∧
    (withInput [] 0 [.fetch 0]).pending = .fetch ((withInput [] 0 []).config.base + 0) :: [] := by decide

theorem witness_ReadPseudoExpands : (withInput [] 0 [.readOutput, .reset]).pending = .readOutput :: [.reset] := by decide

theorem witness_EventsAreServedInOrder :
    ∃ t, (withInput [] 0 [.lw 0, .reset]).pending = .lw 0 :: [.reset] ∧ HostEvent.lw 0 ≠ .readOutput ∧
      step (withInput [] 0 [.lw 0, .reset]) = .next t := ⟨_, rfl, by decide, rfl⟩

theorem witness_EngineWaitsForTheHost : State.reset.pending = [] := rfl

theorem witness_ResetGivesTheResetValues : (keyedWith [1] 1 [.reset, .lw 4]).pending = .reset :: [.lw 4] := rfl

/-- A keyed legal state, and a step from it. -/
theorem witness_StepKeepsTheInvariant :
    ∃ s t : State, s.Inv ∧ s.keyed = true ∧ step s = .next t :=
  ⟨{ keyedWith [1, 2] 1 [.sw 8 3] with cipher := keySchedule piWords alphabetKey }, _,
    { config_wf := defaultConfig_wf
      in_wf := by decide
      in_within := by decide
      out_listed := rfl
      outlen_le := by decide
      err_legal := by decide
      err_outlen := fun _ => rfl
      keyed_bound := fun _ => ⟨alphabetKey, rfl⟩ }, rfl, rfl⟩

theorem step_keyset (s : State) : step (s.withFetchWord 32 1) = .next (complete s (keysetCmd s)) := by
  rw [step_withFetchWord, show decode (BitVec.ofNat 32 1) = .keyset by decide]
  exact exec_eq .keyset s

theorem cipher_keysetCmd {s : State} (h : s.inlen = 16) :
    (complete s (keysetCmd s)).cipher = keySchedule s.config.constTable (keyBytes s) := by
  simp [keysetCmd, h]

/-- A CipherState that is not the key schedule of the key in IN, and the KEYSET that replaces it. -/
theorem witness_CipherStateWrittenOnlyByKeyset :
    ∃ s t : State, step s = .next t ∧ t.cipher ≠ s.cipher := by
  let s : State := withInput [] 16 []
  have key (ks : CipherState) (h : keySchedule s.config.constTable (keyBytes s) = ks) :
      ∃ s t : State, step s = .next t ∧ t.cipher ≠ s.cipher := by
    let s' : State := { s with cipher := { ks with p := ks.p.set 0 (ks.p[0] + 1) } }
    refine ⟨s'.withFetchWord 32 1, complete s' (keysetCmd s'), step_keyset s', fun e => ?_⟩
    rw [cipher_keysetCmd rfl] at e
    have e' : ks = { ks with p := ks.p.set 0 (ks.p[0] + 1) } := h.symm.trans e
    simpa using congrArg (fun c : CipherState => c.p[0]) e'
  exact key _ rfl

theorem witness_KeyedWrittenOnlyByKeysetAndReset :
    (∃ s t : State, step s = .next t ∧ s.keyed = false ∧ t.keyed = true) ∧
    (∃ s t : State, step s = .next t ∧ s.keyed = true ∧ t.keyed = false) :=
  ⟨⟨(withInput [] 16 []).withFetchWord 32 1, complete (withInput [] 16 []) (keysetCmd (withInput [] 16 [])),
      step_keyset _, rfl, by decide⟩,
    ⟨keyedWith [] 0 [.reset], _, rfl, rfl, rfl⟩⟩

theorem witness_InputWrittenOnlyByTheHost :
    (∃ s t : State, s.config.wf ∧ Memory.wf s.inBuf ∧ step s = .next t ∧ (∀ rest, s.pending ≠ .reset :: rest) ∧
      t.inlen ≠ s.inlen) ∧
    (∃ s t : State, s.config.wf ∧ Memory.wf s.inBuf ∧ step s = .next t ∧ (∀ rest, s.pending ≠ .reset :: rest) ∧
      readIn t 0 ≠ readIn s 0) :=
  ⟨⟨withInput [] 0 [.sw 8 5], _, by decide, by decide, rfl, (fun _ h => by cases h), by decide⟩,
    ⟨withInput [1] 0 [.sb 0x10000 2], _, by decide, by decide, rfl, (fun _ h => by cases h), by decide⟩⟩

theorem witness_OutcomeWrittenOnlyByCommands :
    (∃ s t : State, step s = .next t ∧ t.err ≠ s.err) ∧
    (∃ s t : State, step s = .next t ∧ t.outlen ≠ s.outlen ∧ Memory.read t.outBuf 0 ≠ Memory.read s.outBuf 0) :=
  ⟨⟨withInput [] 0 [.sw 0 4], _, rfl, by decide⟩,
    ⟨{ withInput [] 0 [.reset] with outlen := 1, outBuf := [(0, 9)] }, _, rfl, by decide, by decide⟩⟩

end Sys2Proof.Tests
end

/-! ### Packing and unpacking (00_scope.md R10, 43_stream_codec.md R141) -/

namespace Sys2Proof.Machine

/-- A concatenation's value: the high part moved up past the low one. -/
theorem toNat_append_eq_mul_add {m n : Nat} (x : BitVec m) (y : BitVec n) :
    (x ++ y).toNat = x.toNat * 2 ^ n + y.toNat := by
  rw [BitVec.toNat_append, ← Nat.shiftLeft_add_eq_or_of_lt y.isLt, Nat.shiftLeft_eq]

/-- The value of a packed word: the first byte is the most significant (R10). -/
theorem toNat_be32 (b0 b1 b2 b3 : Byte) :
    (be32 b0 b1 b2 b3).toNat = b0.toNat * 2 ^ 24 + b1.toNat * 2 ^ 16 + b2.toNat * 2 ^ 8 + b3.toNat := by
  simp only [be32, toNat_append_eq_mul_add]
  omega

/-- Unpacking gives back the bytes that were packed (R10). -/
@[simp] theorem bytesBe_be32 (b0 b1 b2 b3 : Byte) : bytesBe (be32 b0 b1 b2 b3) = [b0, b1, b2, b3] := by
  simp [bytesBe]

/-- Settles O5: the value of a packed word, and the two conversions undoing each other. -/
theorem bytesAndWordsAreBigEndian : Obligations.BytesAndWordsAreBigEndian :=
  ⟨fun b0 b1 b2 b3 => ⟨toNat_be32 b0 b1 b2 b3, bytesBe_be32 b0 b1 b2 b3⟩,
    fun x => ⟨rfl, be32_bytes x⟩,
    fun _ _ => rfl⟩

end Sys2Proof.Machine

/-! ### Every step keeps the invariant: one lemma per state operation, then per event, then the step -/

namespace Sys2Proof.Machine

/-- The host's list of events to come is no part of the invariant (log 3). -/
theorem State.Inv.with_pending {s : State} (h : s.Inv) (events : List HostEvent) :
    State.Inv { s with pending := events } := { h with }

/-- Every value is legal in INLEN (R33). -/
theorem State.Inv.with_inlen {s : State} (h : s.Inv) (n : Word) : State.Inv { s with inlen := n } := { h with }

/-- The host's record of what it read is no part of the invariant (log 3). -/
theorem State.Inv.recordRead {s : State} (h : s.Inv) (r : ReadResult) : (recordRead s r).Inv := { h with }

/-- A byte written inside IN keeps its canonical form and its size (R29, R55). -/
theorem State.Inv.writeIn {s : State} (h : s.Inv) {i : Nat} (hi : i < s.config.cap) (v : Byte) :
    (writeIn s i v).Inv :=
  { h with
    in_wf := Memory.write_wf h.in_wf i v
    in_within := Memory.write_within h.in_within hi v }

/-- Only the parameters matter for the state a reset gives: buffers are empty, and ERR, OUTLEN and KEYED are 0 (R36). -/
theorem State.Inv.atReset {config : Config} (hc : config.wf) (draws resets : Nat) (events : List HostEvent)
    (reads : List ReadResult) : (State.atReset config draws resets events reads).Inv where
  config_wf := hc
  in_wf := List.Pairwise.nil
  in_within := nofun
  out_listed := rfl
  outlen_le := Nat.zero_le _
  err_legal := by simp [State.atReset]
  err_outlen := fun _ => rfl
  keyed_bound := nofun

/-- An error keeps the binding and IN, and leaves no output (R93). -/
theorem State.Inv.completeErr {s : State} (h : s.Inv) (e : ErrKind) : (completeErr s e).Inv :=
  { h with
    out_listed := rfl
    outlen_le := Nat.zero_le _
    err_legal := code_ne_seven e
    err_outlen := fun _ => rfl }

/-- A success whose output fits OUT and whose new CipherState, if any, is a key schedule's (R92). -/
theorem State.Inv.completeOk {s : State} (h : s.Inv) {out : List Byte} {newCS : Option CipherState}
    (hout : out.length ≤ s.config.cap)
    (hcs : ∀ cs, newCS = some cs → ∃ k, cs = keySchedule s.config.constTable k) :
    (completeOk s out newCS).Inv := by
  obtain ⟨-, -, hcap, -⟩ := h.config_wf
  have hlen : (BitVec.ofNat 32 out.length).toNat = out.length := by
    rw [BitVec.toNat_ofNat, Nat.mod_eq_of_lt (by omega)]
  exact { h with
    out_listed := by
      rw [completeOk_outBuf, completeOk_outlen, hlen, Memory.ofBytesFrom_indices, List.range_eq_range']
    outlen_le := by rwa [completeOk_outlen, hlen]
    err_legal := by simp
    err_outlen := fun herr => absurd rfl herr
    keyed_bound := by
      cases newCS with
      | none => exact h.keyed_bound
      | some cs => exact fun _ => hcs cs rfl }

/-- Every command keeps the invariant: an output fits OUT, and a new CipherState comes from KEYSET's key (R90, R108). -/
theorem exec_keeps_inv {i : Instr} {s t : State} (h : s.Inv) (hexec : exec i s = .next t) : t.Inv := by
  obtain rfl := exec_next hexec
  cases ho : outcomeOf i s with
  | err e => exact h.completeErr e
  | ok out newCS =>
    refine h.completeOk (length_out_le h.config_wf ho) fun cs hcs => ?_
    subst hcs
    obtain ⟨-, -, -, hks⟩ := newCipher_eq ho
    exact ⟨keyBytes s, hks⟩

/-- Every event with a meaning keeps the invariant, one case of `serve_cases` at a time. -/
theorem serve_keeps_inv {e : HostEvent} {s t : State} (h : s.Inv) (hserve : serve e s = .next t) : t.Inv := by
  rcases serve_cases hserve with ⟨v, -, hexec⟩ | ⟨v, -, rfl⟩ | ⟨r, v, -, -, -, rfl⟩ | ⟨i, v, hi, -, rfl⟩ |
    ⟨j, v, -, -, rfl⟩ | ⟨r, -, rfl⟩ | ⟨addr, b, -, -, rfl⟩ | ⟨-, rfl⟩ | ⟨-, rfl⟩
  · exact exec_keeps_inv h hexec
  · exact h.with_inlen v
  · exact h
  · exact h.writeIn hi v
  · exact h
  · exact h.recordRead _
  · exact h.recordRead _
  · exact h.with_pending _
  · exact .atReset h.config_wf ..

/-- Settles O48: the engine waits in the same state, or serves one event, which keeps the invariant. -/
theorem stepKeepsTheInvariant : Obligations.StepKeepsTheInvariant := by
  intro s t h hstep
  rcases step_cases hstep with ⟨-, rfl⟩ | ⟨e, rest, -, hserve⟩
  · exact h
  · exact serve_keeps_inv (h.with_pending rest) hserve

end Sys2Proof.Machine

/-! ### Facts the statements on the state share: what a command, an event and a step leave (10_state.md, 40_commands.md) -/

namespace Sys2Proof.Machine

/-- The two fields make up the whole word (R70). -/
theorem commandWord_fields (w : Word) : commandWord (opField w) (mbzField w) = w := by
  apply BitVec.eq_of_getLsbD_eq
  intro i hi
  simp only [commandWord, opField, mbzField, BitVec.getLsbD_append, BitVec.getLsbD_extractLsb']
  split
  · simp_all
  · rw [show 4 + (i - 4) = i by omega, decide_eq_true (show i - 4 < 28 by omega), Bool.true_and]

/-- Every word is the word of the instruction it decodes to (R74). -/
theorem encode_decode (w : Word) : encode (decode w) = w := by
  conv_rhs => rw [← commandWord_fields w]
  unfold decode
  split
  · rfl
  · next hmbz =>
    rw [not_not.1 hmbz]
    split
    · next hop => rw [hop]; rfl
    · split
      · next hop => rw [hop]; rfl
      · split
        · next hop => rw [hop]; rfl
        · rfl

/-- The only word of KEYSET is 1 (R72). -/
theorem eq_one_of_decode_eq_keyset {w : Word} (h : decode w = .keyset) : w = 1 := by
  rw [← encode_decode w, h]; rfl

/-- What no command writes, said of the command itself (R94). -/
theorem exec_keeps {i : Instr} {s t : State} (h : exec i s = .next t) : CommandKeeps s t := by
  obtain rfl := exec_next h
  exact commandKeeps_complete s _

/-- A command keeps the binding, or it is a KEYSET that succeeds (R25, R27). -/
theorem exec_binding {i : Instr} {s t : State} (h : exec i s = .next t) :
    BindingKept s t ∨ (i = .keyset ∧ s.inlen = 16 ∧ t.err = 0 ∧ t.keyed = true) := by
  obtain rfl := exec_next h
  cases ho : outcomeOf i s with
  | err e => exact .inl ⟨rfl, rfl⟩
  | ok out newCS =>
    cases newCS with
    | none => exact .inl ⟨rfl, rfl⟩
    | some cs =>
      obtain ⟨hi, hn, -, -⟩ := newCipher_eq ho
      exact .inr ⟨hi, hn, rfl, rfl⟩

/-- What an access of the host that is neither a command nor a reset keeps: the binding, the parameters, and what the last
command left (R30, R32, R34). -/
structure HostAccessKeeps (s t : State) : Prop extends BindingKept s t where
  config : t.config = s.config
  err : t.err = s.err
  outlen : t.outlen = s.outlen
  outBuf : t.outBuf = s.outBuf

/-- A step runs a command, resets the engine, or keeps what every other host access keeps (R31, R55, R200). -/
theorem step_classes {s t : State} (h : step s = .next t) :
    (∃ v rest, s.pending = .sw (s.config.base + 0x00000) v :: rest ∧
      exec (decode v) { s with pending := rest } = .next t) ∨
    (∃ rest, s.pending = .reset :: rest ∧ t = resetEngine { s with pending := rest }) ∨
    HostAccessKeeps s t := by
  rcases step_cases h with ⟨-, rfl⟩ | ⟨e, rest, hp, hserve⟩
  · exact .inr (.inr ⟨⟨rfl, rfl⟩, rfl, rfl, rfl, rfl⟩)
  · rcases serve_cases hserve with ⟨v, rfl, hexec⟩ | ⟨v, -, rfl⟩ | ⟨r, v, -, -, -, rfl⟩ | ⟨i, v, -, -, rfl⟩ |
      ⟨j, v, -, -, rfl⟩ | ⟨r, -, rfl⟩ | ⟨addr, b, -, -, rfl⟩ | ⟨-, rfl⟩ | ⟨rfl, rfl⟩
    · exact .inl ⟨v, rest, hp, hexec⟩
    on_goal 8 => exact .inr (.inl ⟨rest, hp, rfl⟩)
    all_goals exact .inr (.inr ⟨⟨rfl, rfl⟩, rfl, rfl, rfl, rfl⟩)

/-- A step keeps the binding, or it is a KEYSET that succeeds, or it is a reset, which leaves the engine unkeyed (R25, R27). -/
theorem step_binding {s t : State} (h : step s = .next t) :
    BindingKept s t ∨
    (∃ rest, s.pending = .sw (s.config.base + 0x00000) 1 :: rest ∧ s.inlen = 16 ∧ t.err = 0 ∧ t.keyed = true) ∨
    (∃ rest, s.pending = .reset :: rest ∧ t.keyed = false) := by
  rcases step_classes h with ⟨v, rest, hp, hexec⟩ | ⟨rest, hp, rfl⟩ | hkeeps
  · rcases exec_binding hexec with ⟨hcipher, hkeyed⟩ | ⟨hdec, hn, herr, hkeyed⟩
    · exact .inl ⟨hcipher, hkeyed⟩
    · obtain rfl := eq_one_of_decode_eq_keyset hdec
      exact .inr (.inl ⟨rest, hp, hn, herr, hkeyed⟩)
  · exact .inr (.inr ⟨rest, hp, rfl⟩)
  · exact .inl hkeeps.toBindingKept

end Sys2Proof.Machine

/-! ### Who writes what, over every step (10_state.md R25 to R35) -/

namespace Sys2Proof.Machine

/-- Settles O49: a step that does not keep the binding is a KEYSET that succeeds or a reset. -/
theorem cipherStateWrittenOnlyByKeyset : Obligations.CipherStateWrittenOnlyByKeyset := by
  intro s t hstep hne
  rcases step_binding hstep with ⟨hcipher, -⟩ | hkeyset | ⟨rest, hp, -⟩
  · exact absurd hcipher hne
  · exact .inl hkeyset
  · exact .inr ⟨rest, hp⟩

/-- Settles O50: of the two steps that write KEYED, the KEYSET sets it and the reset clears it. -/
theorem keyedWrittenOnlyByKeysetAndReset : Obligations.KeyedWrittenOnlyByKeysetAndReset := by
  intro s t hstep
  rcases step_binding hstep with ⟨-, hkeyed⟩ | ⟨rest, hp, hn, herr, hset⟩ | ⟨rest, hp, hcleared⟩
  · rw [hkeyed]
    exact ⟨fun hf ht => absurd (hf.symm.trans ht) (by decide), fun ht hf => absurd (hf.symm.trans ht) (by decide)⟩
  · exact ⟨fun _ _ => ⟨rest, hp, hn, herr⟩, by simp [hset]⟩
  · exact ⟨by simp [hcleared], fun _ _ => ⟨rest, hp⟩⟩

/-- Settles O52: a host access keeps the outcome fields, and no class of step writes the parameters. -/
theorem outcomeWrittenOnlyByCommands : Obligations.OutcomeWrittenOnlyByCommands := by
  intro s t hstep
  rcases step_classes hstep with ⟨v, rest, hp, hexec⟩ | ⟨rest, hp, rfl⟩ | hkeeps
  · exact ⟨(exec_keeps hexec).config, fun _ => .inl ⟨v, rest, hp⟩⟩
  · exact ⟨resetEngine_config _, fun _ => .inr ⟨rest, hp⟩⟩
  · refine ⟨hkeeps.config, ?_⟩
    rintro (herr | hlen | ⟨j, hj⟩)
    · exact absurd hkeeps.err herr
    · exact absurd hkeeps.outlen hlen
    · exact absurd (congrArg (Memory.read · j) hkeeps.outBuf) hj

/-- INLEN and the bytes of IN stay as they are. -/
structure InputKept (s t : State) : Prop where
  inlen : t.inlen = s.inlen
  in_bytes : ∀ i, readIn t i = readIn s i

/-- An event keeps the input, or is the host's write of INLEN or of a byte of IN, or is a reset (R29, R33). -/
theorem serve_input {e : HostEvent} {s t : State} (h : serve e s = .next t) :
    InputKept s t ∨
    (∃ v, e = .sw (s.config.base + 0x00008) v ∧ t = { s with inlen := v }) ∨
    (∃ i v, e = .sb (s.config.base + inOffset + i) v ∧ t = writeIn s i v) ∨
    e = .reset := by
  rcases serve_cases h with ⟨v, -, hexec⟩ | hinlen | ⟨r, v, -, -, -, rfl⟩ | ⟨i, v, -, he, ht⟩ |
    ⟨j, v, -, -, rfl⟩ | ⟨r, -, rfl⟩ | ⟨addr, b, -, -, rfl⟩ | ⟨-, rfl⟩ | ⟨he, -⟩
  · exact .inl ⟨(exec_keeps hexec).inlen, (exec_keeps hexec).in_bytes⟩
  · exact .inr (.inl hinlen)
  on_goal 2 => exact .inr (.inr (.inl ⟨i, v, he, ht⟩))
  on_goal 6 => exact .inr (.inr (.inr he))
  all_goals exact .inl ⟨rfl, fun _ => rfl⟩

/-- Settles O51: of the two writes of the input, the one of INLEN changes no byte and the one of a byte changes only it. -/
theorem inputWrittenOnlyByTheHost : Obligations.InputWrittenOnlyByTheHost := by
  intro s t _ hwf hstep hreset
  rcases step_cases hstep with ⟨-, rfl⟩ | ⟨e, rest, hp, hserve⟩
  · exact ⟨fun hne => absurd rfl hne, fun _ hne => absurd rfl hne⟩
  rcases serve_input hserve with ⟨hinlen, hbytes⟩ | ⟨v, rfl, rfl⟩ | ⟨k, v, rfl, rfl⟩ | rfl
  · exact ⟨fun hne => absurd hinlen hne, fun i hne => absurd (hbytes i) hne⟩
  · exact ⟨fun _ => ⟨rest, hp⟩, fun _ hne => absurd rfl hne⟩
  · refine ⟨fun hne => absurd rfl hne, fun i hne => ?_⟩
    have hread := readIn_writeIn (s := { s with pending := rest }) hwf k v i
    by_cases hi : i = k
    · subst hi
      rw [hread, if_pos rfl]
      exact ⟨rest, hp⟩
    · rw [if_neg hi] at hread
      exact absurd hread hne
  · exact absurd hp (hreset rest)

/-- Every event but `read n` leaves the host's events to come alone (R58; log 3, log 12). -/
theorem serve_pending {e : HostEvent} {s t : State} (h : serve e s = .next t) (he : e ≠ .readOutput) :
    t.pending = s.pending := by
  rcases serve_cases h with ⟨v, -, hexec⟩ | ⟨v, -, rfl⟩ | ⟨r, v, -, -, -, rfl⟩ | ⟨i, v, -, -, rfl⟩ |
    ⟨j, v, -, -, rfl⟩ | ⟨r, -, rfl⟩ | ⟨addr, b, -, -, rfl⟩ | ⟨hread, -⟩ | ⟨-, rfl⟩
  · exact (exec_keeps hexec).pending
  on_goal 7 => exact absurd hread he
  on_goal 7 => exact resetEngine_pending s
  all_goals rfl

/-- Settles O44: the step takes the event off the list, and serving it leaves the rest. -/
theorem eventsAreServedInOrder : Obligations.EventsAreServedInOrder := by
  intro s t e rest hp he hstep
  rw [step_cons hp] at hstep
  exact serve_pending hstep he

end Sys2Proof.Machine

/-! ### What a command leaves in the outcome registers and in OUT (R30, R32) -/

namespace Sys2Proof.Machine

/-- Settles O34: an error specifies no OUT byte and sets OUTLEN to 0; a success specifies its output, whose length fits. -/
theorem outSpecifiedExactlyBelowOutlen : Obligations.OutSpecifiedExactlyBelowOutlen := by
  intro i s t hc hexec j
  obtain rfl := exec_next hexec
  cases ho : outcomeOf i s with
  | err e => simp [OutUnspecified]
  | ok out newCS =>
    have hle : out.length ≤ s.config.cap := length_out_le hc ho
    obtain ⟨-, -, hcap, -⟩ := hc
    have hlen : out.length % 2 ^ 32 = out.length := Nat.mod_eq_of_lt (by omega)
    rw [OutUnspecified, complete_ok, completeOk_outBuf, completeOk_outlen, Memory.read_ofBytes, BitVec.toNat_ofNat, hlen]
    exact List.getElem?_eq_none_iff

/-- The output a command leaves is a function of its outcome alone (R30, R92). -/
theorem outputBytes_complete_congr (s s' : State) (o : CmdOutcome) :
    outputBytes (complete s o) = outputBytes (complete s' o) := by
  cases o with
  | err e => rfl
  | ok out newCS =>
    refine List.map_congr_left fun j hj => ?_
    have hlt : j < out.length := (List.mem_range.1 hj).trans_le (by simpa using Nat.mod_le ..)
    simp [readOut, hlt]

/-- STATUS after a command is a function of its outcome and of KEYED before (R32). -/
theorem statusWord_complete_congr {s s' : State} (h : s.keyed = s'.keyed) (o : CmdOutcome) :
    statusWord (complete s o) = statusWord (complete s' o) := by
  cases o <;> simp [statusWord, h]

/-- OUTLEN after a command is a function of its outcome alone (R34). -/
theorem outlen_complete_congr (s s' : State) (o : CmdOutcome) : (complete s o).outlen = (complete s' o).outlen := by
  cases o <;> rfl

/-- An unkeyed engine that a command leaves keyed holds the CipherState the command gave it (R27). -/
theorem cipher_complete_congr {s : State} (s' : State) (h : s.keyed = false) {o : CmdOutcome}
    (hk : (complete s o).keyed = true) : (complete s o).cipher = (complete s' o).cipher := by
  cases o with
  | err e => simp [h] at hk
  | ok out newCS =>
    cases newCS with
    | none => simp [h] at hk
    | some cs => rfl

/-- An unkeyed engine's outcome depends on the parameters, INLEN and IN alone: ENCRYPT and DECRYPT stop before they read the
tables, and KEYSET does not read them (R26, R107). -/
theorem outcomeOf_congr_of_unkeyed (i : Instr) {s s' : State} (hk : s.keyed = false) (hk' : s'.keyed = false)
    (hc : s.config = s'.config) (hn : s.inlen = s'.inlen) (hin : ∀ j, readIn s j = readIn s' j) :
    outcomeOf i s = outcomeOf i s' := by
  cases i with
  | keyset => simp only [outcomeOf, keysetCmd, hc, hn, keyBytes_congr fun j _ => hin j]
  | encrypt => simp [outcomeOf, encryptCmd, hk, hk']
  | decrypt => simp [outcomeOf, decryptCmd, hk, hk']
  | illegal op mbz => rfl

/-- Settles O36: the two engines complete with one outcome, and it fixes everything observable. -/
theorem unkeyedTablesAreNeverObserved : Obligations.UnkeyedTablesAreNeverObserved := by
  intro i s s' t t' hk hk' hc hn hin hexec hexec'
  have ho : outcomeOf i s = outcomeOf i s' := outcomeOf_congr_of_unkeyed i hk hk' hc hn hin
  have hkeep := exec_keeps hexec
  have hkeep' := exec_keeps hexec'
  obtain rfl := exec_next hexec
  obtain rfl := exec_next hexec'
  refine ⟨?_, ?_, ?_, fun j => ?_, ?_, fun hkeyed => ?_⟩
  · rw [ho]; exact statusWord_complete_congr (hk.trans hk'.symm) _
  · rw [hkeep.inlen, hkeep'.inlen, hn]
  · rw [ho]; exact outlen_complete_congr s s' _
  · rw [hkeep.in_bytes, hkeep'.in_bytes, hin]
  · rw [ho]; exact outputBytes_complete_congr s s' _
  · rw [← ho]; exact cipher_complete_congr s' hk hkeyed

/-- STATUS read as a number (R32). -/
theorem toNat_statusWord (s : State) :
    (statusWord s).toNat = s.err.toNat + (if s.keyed = true then 0x100 else 0) := by
  simp only [statusWord, toNat_append_eq_mul_add]
  cases s.keyed
  · simp
  · simp; omega

/-- Outside ERR and KEYED, STATUS is zero (R32). -/
theorem getLsbD_statusWord_eq_false (s : State) {i : Nat} (h3 : 3 ≤ i) (h8 : i ≠ 8) :
    (statusWord s).getLsbD i = false := by
  simp only [statusWord, BitVec.getLsbD_append, BitVec.getLsbD_zero]
  rw [if_neg (by omega)]
  split
  · rfl
  · rw [if_neg (by omega)]

/-- Settles O38: the value, and the bits outside the two fields. -/
theorem statusFields : Obligations.StatusFields :=
  fun s => ⟨toNat_statusWord s, fun _ _ h3 h8 => getLsbD_statusWord_eq_false s h3 h8⟩

end Sys2Proof.Machine

/-! ### Host accesses and command writes on the window, and reset -/

namespace Sys2Proof.Machine

/-- The same state with other contents of P, S0, S1, L and R. -/
def State.withTables (s : State) (cs : CipherState) (l r : Word) : State := { s with cipher := cs, workL := l, workR := r }

/-- No register shows the tables (R37). -/
@[simp] theorem readReg_withTables (s : State) (cs : CipherState) (l r : Word) (reg : Reg) :
    readReg (s.withTables cs l r) reg = readReg s reg := by
  cases reg <;> rfl

/-- No buffer byte shows the tables (R37). -/
@[simp] theorem readBufByte_withTables (s : State) (cs : CipherState) (l r : Word) (b : BufByte) :
    readBufByte (s.withTables cs l r) b = readBufByte s b := by
  cases b <;> rfl

/-- A write of a buffer byte does the same whatever the tables hold. -/
@[simp] theorem writeBufByte_withTables (s : State) (cs : CipherState) (l r : Word) (b : BufByte) (v : Byte) :
    writeBufByte (s.withTables cs l r) b v = (writeBufByte s b v).withTables cs l r := by
  cases b <;> rfl

/-- So does a write of any register but CMD. -/
theorem writeReg_withTables {s t : State} {reg : Reg} {v : Word} (hcmd : reg ≠ .cmd) (h : writeReg s reg v = .next t)
    (cs : CipherState) (l r : Word) : writeReg (s.withTables cs l r) reg v = .next (t.withTables cs l r) := by
  cases reg with
  | cmd => exact absurd rfl hcmd
  | status => cases h; rfl
  | inlen => cases h; rfl
  | outlen => cases h; rfl
  | capr => cases h; rfl

/-- An event that is neither a command nor a reset does the same whatever the tables hold (R37). -/
theorem serve_withTables {e : HostEvent} {s t : State} (hcmd : ∀ v, e ≠ .sw (s.config.base + 0x00000) v)
    (hreset : e ≠ .reset) (h : serve e s = .next t) (cs : CipherState) (l r : Word) :
    serve e (s.withTables cs l r) = .next (t.withTables cs l r) := by
  have hconfig : (s.withTables cs l r).config = s.config := rfl
  cases e with
  | lw addr =>
    simp only [serve, hconfig, readReg_withTables] at h ⊢
    split at h
    · cases h; rfl
    · cases h
  | sw addr v =>
    simp only [serve, hconfig] at h ⊢
    split at h
    · next reg hreg =>
      have hne : reg ≠ .cmd := by
        rintro rfl
        exact hcmd v (congrArg (HostEvent.sw · v) (regTarget_eq_ok hreg))
      exact writeReg_withTables hne h cs l r
    · cases h
  | lb addr =>
    simp only [serve, hconfig, readBufByte_withTables] at h ⊢
    split at h
    · cases h; rfl
    · cases h
  | sb addr v =>
    simp only [serve, hconfig, writeBufByte_withTables] at h ⊢
    split at h
    · cases h; rfl
    · cases h
  | otherRead addr => cases h
  | otherWrite addr => cases h
  | fetch addr => cases h
  | readOutput => cases h; rfl
  | reset => exact absurd rfl hreset

/-- Settles O37: the step serves the same event on the same parameters, and a host access keeps the CipherState. -/
theorem hostAccessesNeverReadTheTables : Obligations.HostAccessesNeverReadTheTables := by
  intro s t cs l r hcmd hreset hstep
  constructor
  · rcases step_cases hstep with ⟨hp, rfl⟩ | ⟨e, rest, hp, hserve⟩
    · exact step_nil hp
    · rw [step_cons (s := { s with cipher := cs, workL := l, workR := r }) hp]
      exact serve_withTables (s := { s with pending := rest }) (fun v he => hcmd v rest (he ▸ hp))
        (fun he => hreset rest (he ▸ hp)) hserve cs l r
  · rcases step_classes hstep with ⟨v, rest, hp, -⟩ | ⟨rest, hp, -⟩ | hkeeps
    · exact absurd hp (hcmd v rest)
    · exact absurd hp (hreset rest)
    · exact hkeeps.cipher

/-- Settles O4: the step serves the write, and a write at CMD's offset runs the decoded command. -/
theorem commandWriteRunsDecodedCommand : Obligations.CommandWriteRunsDecodedCommand := by
  intro s v rest hp
  rw [step_cons hp]
  exact serve_commandEvent { s with pending := rest } v

/-- Settles O46: the step serves the reset, whose fields are R36's; at power-on the same values stand. -/
theorem resetGivesTheResetValues : Obligations.ResetGivesTheResetValues := by
  refine ⟨fun s rest hp => ⟨resetEngine { s with pending := rest }, step_cons hp, ?_⟩, ?_⟩
  · simp [InUnspecified, OutUnspecified, readReg]
  · simp [InUnspecified, OutUnspecified, statusWord]

/-- Settles O47: the state after power-on is a reset state of the default parameters. -/
theorem resetSatisfiesTheInvariant : Obligations.ResetSatisfiesTheInvariant :=
  .atReset defaultConfig_wf 0 0 [] []

end Sys2Proof.Machine

/-! ### The subkeys the block transforms read (42_round_function.md R122) -/

namespace Sys2Proof.Machine

/-- Two CipherStates agree on the S-boxes and on every subkey but P[16] and P[17]. -/
structure AgreeOnUsedSubkeys (cs cs' : CipherState) : Prop where
  s0 : cs.s0 = cs'.s0
  s1 : cs.s1 = cs'.s1
  subkeys : ∀ i, i ≠ 16 → i ≠ 17 → subkey cs i = subkey cs' i

/-- F reads the S-boxes alone (R121). -/
theorem AgreeOnUsedSubkeys.roundF {cs cs' : CipherState} (h : AgreeOnUsedSubkeys cs cs') : roundF cs = roundF cs' := by
  funext x
  simp only [Machine.roundF, h.s0, h.s1]

/-- The loop indices of the block transforms stay below 15, so their subkey indices stay below 16 (R122). -/
theorem loop_index_lt : ∀ r ∈ evensBelow Config.nr, r + 1 < 16 := by decide

/-- An iteration of the encryption reads only subkeys below 16 (R123). -/
theorem AgreeOnUsedSubkeys.encryptIteration {cs cs' : CipherState} (h : AgreeOnUsedSubkeys cs cs') (b : Block) {r : Nat}
    (hr : r + 1 < 16) : encryptIteration cs b r = encryptIteration cs' b r := by
  simp only [Machine.encryptIteration, h.roundF, h.subkeys r (by omega) (by omega),
    h.subkeys (r + 1) (by omega) (by omega)]

/-- An iteration of the decryption reads only subkeys below 16 (R125). -/
theorem AgreeOnUsedSubkeys.decryptIteration {cs cs' : CipherState} (h : AgreeOnUsedSubkeys cs cs') (b : Block) {r : Nat}
    (hr : r + 1 < 16) : decryptIteration cs b r = decryptIteration cs' b r := by
  simp only [Machine.decryptIteration, h.roundF, h.subkeys r (by omega) (by omega),
    h.subkeys (r + 1) (by omega) (by omega)]

/-- The encryption reads P[18] and P[19] besides its loop's subkeys (R123). -/
theorem AgreeOnUsedSubkeys.encryptBlock {cs cs' : CipherState} (h : AgreeOnUsedSubkeys cs cs') (b : Block) :
    encryptBlock cs b = encryptBlock cs' b := by
  have hloop := List.foldl_ext _ _ b fun blk r hr => h.encryptIteration blk (loop_index_lt r hr)
  simp only [Machine.encryptBlock, encryptBlockNr, hloop, h.subkeys 18 (by decide) (by decide),
    h.subkeys 19 (by decide) (by decide)]

/-- The decryption reads P[18] and P[19] besides its loop's subkeys (R125). -/
theorem AgreeOnUsedSubkeys.decryptBlock {cs cs' : CipherState} (h : AgreeOnUsedSubkeys cs cs') (b : Block) :
    decryptBlock cs b = decryptBlock cs' b := by
  simp only [Machine.decryptBlock, decryptBlockNr, h.subkeys 18 (by decide) (by decide),
    h.subkeys 19 (by decide) (by decide)]
  exact List.foldl_ext _ _ _ fun blk r hr => h.decryptIteration blk (loop_index_lt r (List.mem_reverse.1 hr))

/-- Other words in P[16] and P[17] leave the rest of the CipherState. -/
theorem agreeOnUsedSubkeys_set (cs : CipherState) (w16 w17 : Word) :
    AgreeOnUsedSubkeys { cs with p := (cs.p.set 16 w16).set 17 w17 } cs where
  s0 := rfl
  s1 := rfl
  subkeys := fun i h16 h17 => by simp [subkey, h16.symm, h17.symm]

/-- Settles O10: both transforms read only what the two CipherStates agree on. -/
theorem blockTransformsIgnoreUnusedSubkeys : Obligations.BlockTransformsIgnoreUnusedSubkeys := by
  intro cs w16 w17 b
  have h := agreeOnUsedSubkeys_set cs w16 w17
  exact ⟨h.encryptBlock b, h.decryptBlock b⟩

end Sys2Proof.Machine

/-! ### What one access of the window does, and which accesses are refused (20_memory.md R54 to R56) -/

namespace Sys2Proof.Machine

/-- The step of a 32-bit read at a register's address. -/
theorem step_lw_reg {s : State} {rest : List HostEvent} (r : Reg)
    (hp : s.pending = .lw (s.config.base + r.offset) :: rest) :
    step s = .next (recordRead { s with pending := rest } (.lw (s.config.base + r.offset) (readReg s r))) := by
  rw [step_cons hp]
  simp only [serve, regTarget_reg]
  cases r <;> rfl

/-- The step of a 32-bit write at a register's address. -/
theorem step_sw_reg {s : State} {rest : List HostEvent} {v : Word} (r : Reg)
    (hp : s.pending = .sw (s.config.base + r.offset) v :: rest) :
    step s = writeReg { s with pending := rest } r v := by
  rw [step_cons hp]
  simp only [serve, regTarget_reg]

/-- The step of an 8-bit read that reaches a buffer byte. -/
theorem step_lb_byte {s : State} {rest : List HostEvent} {addr : Nat} {b : BufByte}
    (hb : byteTarget s.config addr = .ok b) (hp : s.pending = .lb addr :: rest) :
    step s = .next (recordRead { s with pending := rest } (.lb addr (readBufByte s b))) := by
  rw [step_cons hp]
  simp only [serve, hb]
  cases b <;> rfl

/-- The step of an 8-bit write that reaches a buffer byte. -/
theorem step_sb_byte {s : State} {rest : List HostEvent} {addr : Nat} {b : BufByte} {v : Byte}
    (hb : byteTarget s.config addr = .ok b) (hp : s.pending = .sb addr v :: rest) :
    step s = .next (writeBufByte { s with pending := rest } b v) := by
  rw [step_cons hp]
  simp only [serve, hb]

/-- Settles O39: each of the five offsets is a register's, and each value is what that register reads as. -/
theorem registerReadsReturnTheirValue : Obligations.RegisterReadsReturnTheirValue := by
  rintro s rest off v (⟨rfl, rfl⟩ | ⟨rfl, rfl⟩ | ⟨rfl, rfl⟩ | ⟨rfl, rfl⟩ | ⟨rfl, rfl⟩) hp
  · exact step_lw_reg .cmd hp
  · exact step_lw_reg .status hp
  · exact step_lw_reg .inlen hp
  · exact step_lw_reg .outlen hp
  · exact step_lw_reg .capr hp

/-- Settles O40: the write of INLEN, then those of the three registers that ignore it. -/
theorem registerWritesStoreOrAreIgnored : Obligations.RegisterWritesStoreOrAreIgnored := by
  intro s rest v
  refine ⟨step_sw_reg .inlen, ?_⟩
  rintro off (rfl | rfl | rfl) hp
  · exact step_sw_reg .status hp
  · exact step_sw_reg .outlen hp
  · exact step_sw_reg .capr hp

/-- Settles O41: the access reaches its byte, and a write of IN changes that byte of the buffer alone. -/
theorem bufferAccessesReachTheirByte : Obligations.BufferAccessesReachTheirByte := by
  refine ⟨?_, ?_, ?_, ?_⟩
  · rintro s rest i v ⟨-, -, hcap, -⟩ hwf hi hp
    have hread := readIn_writeIn (s := { s with pending := rest }) hwf i v
    exact ⟨_, step_sb_byte (byteTarget_in s.config hcap hi) hp, (hread i).trans (if_pos rfl),
      fun k hk => (hread k).trans (if_neg hk), rfl⟩
  · rintro s rest j v ⟨-, -, hcap, -⟩ hj hp
    exact step_sb_byte (byteTarget_out s.config hcap hj) hp
  · rintro s rest i ⟨-, -, hcap, -⟩ hi hp
    exact step_lb_byte (byteTarget_in s.config hcap hi) hp
  · rintro s rest j ⟨-, -, hcap, -⟩ hj hp
    exact step_lb_byte (byteTarget_out s.config hcap hj) hp

/-- The registers' offsets (R53). -/
theorem exists_reg_offset_iff {off : Nat} :
    (∃ r : Reg, off = r.offset) ↔ off = 0 ∨ off = 4 ∨ off = 8 ∨ off = 0xC ∨ off = 0x10 := by
  rw [← not_iff_not, ← regAt_eq_none]
  constructor
  · intro h
    cases hr : regAt off with
    | none => rfl
    | some r => exact absurd ⟨r, regAt_eq_some hr⟩ h
  · rintro h ⟨r, rfl⟩
    simp at h

/-- The 32-bit accesses with a meaning are those at a register's offset (R54). -/
theorem exists_regTarget_iff {c : Config} {off : Nat} :
    (∃ r, regTarget c (c.base + off) = .ok r) ↔ off = 0 ∨ off = 4 ∨ off = 8 ∨ off = 0xC ∨ off = 0x10 := by
  rw [← exists_reg_offset_iff]
  constructor
  · rintro ⟨r, hr⟩
    exact ⟨r, Nat.add_left_cancel (regTarget_eq_ok hr)⟩
  · rintro ⟨r, rfl⟩
    exact ⟨r, regTarget_reg c r⟩

/-- The 8-bit accesses with a meaning are those at an offset in IN or in OUT (R54). -/
theorem exists_byteTarget_iff {c : Config} (hc : c.cap ≤ 65536) {off : Nat} :
    (∃ b, byteTarget c (c.base + off) = .ok b) ↔
      0x10000 ≤ off ∧ off < 0x10000 + c.cap ∨ 0x20000 ≤ off ∧ off < 0x20000 + c.cap := by
  constructor
  · rintro ⟨b, hb⟩
    rcases byteTarget_eq_ok hb with ⟨i, -, hi, haddr⟩ | ⟨j, -, hj, haddr⟩
    · unfold inOffset at haddr; left; omega
    · unfold outOffset at haddr; right; omega
  · rintro (⟨hle, hlt⟩ | ⟨hle, hlt⟩)
    · obtain ⟨i, rfl⟩ := Nat.exists_eq_add_of_le hle
      exact ⟨.inByte i, by rw [← Nat.add_assoc]; exact byteTarget_in c hc (by omega)⟩
    · obtain ⟨j, rfl⟩ := Nat.exists_eq_add_of_le hle
      exact ⟨.outByte j, by rw [← Nat.add_assoc]; exact byteTarget_out c hc (by omega)⟩

/-- Served on every target and refused without one: then an access is served, or refused, in these cases only (R54, R56). -/
theorem next_iff_and_refused_iff {α : Type} {target : Except Refusal α} {o : Host.Outcome State Fault Refusal}
    (hok : ∀ a, target = .ok a → ∃ t, o = .next t) (herror : ∀ x, target = .error x → o = .refused x) :
    ((∃ t, o = .next t) ↔ ∃ a, target = .ok a) ∧ ((∃ x, o = .refused x) ↔ ¬∃ a, target = .ok a) := by
  cases htarget : target with
  | ok a =>
    obtain ⟨t, rfl⟩ := hok a htarget
    simp
  | error x =>
    obtain rfl := herror x htarget
    simp

/-- A 32-bit access of either direction has a meaning exactly when it reaches a register. -/
theorem serve_word_iff {s : State} {e : HostEvent} {addr : Nat} {v : Word} (he : e = .lw addr ∨ e = .sw addr v) :
    ((∃ t, serve e s = .next t) ↔ ∃ r, regTarget s.config addr = .ok r) ∧
    ((∃ x, serve e s = .refused x) ↔ ¬∃ r, regTarget s.config addr = .ok r) := by
  refine next_iff_and_refused_iff (fun r hr => ?_) (fun x hx => ?_)
  · rcases he with rfl | rfl
    · simp [serve, hr]
    · simp only [serve, hr]; exact writeReg_next s r v
  · rcases he with rfl | rfl
    · simp only [serve, hx]
    · simp only [serve, hx]

/-- An 8-bit access of either direction has a meaning exactly when it reaches a buffer byte. -/
theorem serve_byte_iff {s : State} {e : HostEvent} {addr : Nat} {v : Byte} (he : e = .lb addr ∨ e = .sb addr v) :
    ((∃ t, serve e s = .next t) ↔ ∃ b, byteTarget s.config addr = .ok b) ∧
    ((∃ x, serve e s = .refused x) ↔ ¬∃ b, byteTarget s.config addr = .ok b) := by
  refine next_iff_and_refused_iff (fun b hb => ?_) (fun x hx => ?_)
  · rcases he with rfl | rfl
    · simp [serve, hb]
    · simp [serve, hb]
  · rcases he with rfl | rfl
    · simp only [serve, hx]
    · simp only [serve, hx]

/-- Settles O42: by the access's width, whether it has a target; no access of another width and no fetch has one. -/
theorem otherAccessesAreRefused : Obligations.OtherAccessesAreRefused := by
  rintro s rest off ⟨-, -, hcap, -⟩ -
  refine ⟨fun e v he hp => ?_, fun e v he hp => ?_, fun e he hp => ?_⟩
  · rw [step_cons hp, ← exists_regTarget_iff (c := s.config)]
    exact serve_word_iff (s := { s with pending := rest }) he
  · rw [step_cons hp, ← exists_byteTarget_iff hcap]
    exact serve_byte_iff (s := { s with pending := rest }) he
  · rw [step_cons hp]
    rcases he with rfl | rfl | rfl
    · exact ⟨_, rfl⟩
    · exact ⟨_, rfl⟩
    · exact ⟨_, rfl⟩

end Sys2Proof.Machine

/-! ### Decoding and encoding undo each other, and `read n -> o` (30_encoding.md R70 to R76) -/

namespace Sys2Proof

open Laws.CommandFields (fields_commandWord)

/-- The fields of an illegal word (R73). -/
theorem Instr.wf_illegal_iff (op : BitVec 4) (mbz : BitVec 28) :
    (Instr.illegal op mbz).wf = true ↔ mbz ≠ 0 ∨ op ≠ 1 ∧ op ≠ 2 ∧ op ≠ 3 := by
  simp [Instr.wf, and_assoc]

/-- A legal command's word, or an illegal word's fields, decode to what they were written from (R72, R73). -/
theorem decode_encode {i : Instr} (h : i.wf = true) : decode (encode i) = i := by
  cases i with
  | keyset => decide
  | encrypt => decide
  | decrypt => decide
  | illegal op mbz =>
    obtain ⟨hop, hmbz⟩ := fields_commandWord op mbz
    simp only [encode, decode, hop, hmbz]
    rcases (Instr.wf_illegal_iff op mbz).1 h with hne | ⟨h1, h2, h3⟩
    · rw [if_pos hne]
    · rw [if_neg h1, if_neg h2, if_neg h3, ite_self]

/-- Decoding gives an illegal instruction only for fields that make a word illegal (R73). -/
theorem decode_wf (w : Word) : (decode w).wf = true := by
  unfold decode
  split
  · next hmbz => exact (Instr.wf_illegal_iff _ _).2 (.inl hmbz)
  · split
    · rfl
    · next h1 =>
      split
      · rfl
      · next h2 =>
        split
        · rfl
        · next h3 => exact (Instr.wf_illegal_iff _ _).2 (.inr ⟨h1, h2, h3⟩)

/-- Exactly one word decodes to a well-formed instruction, its own (R72, R73). -/
theorem decode_eq_iff_eq_encode {i : Instr} (h : i.wf = true) {w : Word} : decode w = i ↔ w = encode i := by
  constructor
  · rintro rfl
    exact (Machine.encode_decode w).symm
  · rintro rfl
    exact decode_encode h

/-- An instruction that is none of the three commands is an illegal one. -/
theorem Instr.exists_eq_illegal_iff (i : Instr) :
    (∃ op mbz, i = .illegal op mbz) ↔ i ≠ .keyset ∧ i ≠ .encrypt ∧ i ≠ .decrypt := by
  cases i with
  | keyset => simp
  | encrypt => simp
  | decrypt => simp
  | illegal op mbz => simp

/-- Settles O3: decoding after encoding on the well-formed instructions, and encoding after decoding on all words. -/
theorem decodeAndEncodeAreInverse : Obligations.DecodeAndEncodeAreInverse :=
  ⟨fun _ => decode_encode, fun w => ⟨decode_wf w, Machine.encode_decode w⟩⟩

/-- Settles O2: a command's one word is its encoding, and the illegal words are those that select no command. -/
theorem exactlyThreeWordsSelectACommand : Obligations.ExactlyThreeWordsSelectACommand := by
  intro w
  have hkeyset : decode w = .keyset ↔ w = 1 := decode_eq_iff_eq_encode (i := .keyset) rfl
  have hencrypt : decode w = .encrypt ↔ w = 2 := decode_eq_iff_eq_encode (i := .encrypt) rfl
  have hdecrypt : decode w = .decrypt ↔ w = 3 := decode_eq_iff_eq_encode (i := .decrypt) rfl
  refine ⟨hkeyset, hencrypt, hdecrypt, ?_⟩
  rw [Instr.exists_eq_illegal_iff, Ne, Ne, Ne, hkeyset, hencrypt, hdecrypt]

/-- Settles O1: ten fixed words, each evaluated through its two fields. -/
theorem decodeOfWrittenWords : Obligations.DecodeOfWrittenWords := by
  unfold Obligations.DecodeOfWrittenWords
  decide

end Sys2Proof

namespace Sys2Proof.Machine

/-- Settles O43: serving the pseudo-instruction puts its expansion in front of the rest of the host's events. -/
theorem readPseudoExpands : Obligations.ReadPseudoExpands := by
  intro s rest hp
  rw [step_cons hp]
  rfl

end Sys2Proof.Machine

/-! ### What every command has in common: it ends, how an error ends, and what its outcome depends on (40_commands.md) -/

namespace Sys2Proof.Machine

/-- Settles O30: the next state is the completion with the command's outcome. -/
theorem everyCommandEnds : Obligations.EveryCommandEnds :=
  fun i s => ⟨complete s (outcomeOf i s), exec_eq i s⟩

/-- Settles O29: a command that leaves an error code has completed with an error, since a success leaves 0. -/
theorem everyErrorLeavesTheBinding : Obligations.EveryErrorLeavesTheBinding := by
  intro i s t hexec herr
  obtain rfl := exec_next hexec
  cases ho : outcomeOf i s with
  | err e => exact failsWith_completeErr s e
  | ok out newCS => exact absurd (by rw [ho, complete_ok, completeOk_err]) herr

/-- ERR after a command is a function of its outcome alone (R32). -/
theorem err_complete_congr (s s' : State) (o : CmdOutcome) : (complete s o).err = (complete s' o).err := by
  cases o <;> rfl

/-- KEYED after a command is a function of its outcome and of KEYED before (R27). -/
theorem keyed_complete_congr {s s' : State} (h : s.keyed = s'.keyed) (o : CmdOutcome) :
    (complete s o).keyed = (complete s' o).keyed := by
  cases o <;> simp [h]

/-- The CipherState after a command is a function of its outcome and of the CipherState before (R25). -/
theorem cipher_complete_congr_of_eq {s s' : State} (h : s.cipher = s'.cipher) (o : CmdOutcome) :
    (complete s o).cipher = (complete s' o).cipher := by
  cases o <;> simp [h]

/-- No command's outcome depends on OUT or OUTLEN (R94). -/
theorem outcomeOf_withOutput (i : Instr) (s : State) (m : Memory) (n : Word) :
    outcomeOf i { s with outBuf := m, outlen := n } = outcomeOf i s := by
  cases i <;> rfl

/-- Settles O31: the two engines complete with one outcome, from one binding. -/
theorem commandsNeitherWriteInNorReadOut : Obligations.CommandsNeitherWriteInNorReadOut := by
  refine ⟨fun i s t => exec_keeps, fun i s s' t t' hs' hexec hexec' => ?_⟩
  have ho : outcomeOf i s' = outcomeOf i s := by rw [hs', outcomeOf_withOutput]
  have hkeyed : s.keyed = s'.keyed := by rw [hs']
  have hcipher : s.cipher = s'.cipher := by rw [hs']
  obtain rfl := exec_next hexec
  obtain rfl := exec_next hexec'
  rw [ho]
  exact ⟨err_complete_congr s s' _, outlen_complete_congr s s' _, outputBytes_complete_congr s s' _,
    keyed_complete_congr hkeyed _, cipher_complete_congr_of_eq hcipher _⟩

/-- The outcome of ENCRYPT and of DECRYPT depends on the CipherState, KEYED, INLEN, IN[0..INLEN-1] and CAP alone (R95). -/
theorem outcomeOf_congr_of_stream {i : Instr} (hi : i = .encrypt ∨ i = .decrypt) {s s' : State}
    (hcipher : s.cipher = s'.cipher) (hkeyed : s.keyed = s'.keyed) (hn : s.inlen = s'.inlen)
    (hcap : s.config.cap = s'.config.cap) (hin : ∀ j, j < s.inlen.toNat → readIn s j = readIn s' j) :
    outcomeOf i s = outcomeOf i s' := by
  have hdata : inputBytes s = inputBytes s' := inputBytes_congr hn hin
  rcases hi with rfl | rfl
  · simp only [outcomeOf, encryptCmd, hcipher, hkeyed, hn, hcap, hdata]
  · simp only [outcomeOf, decryptCmd, hcipher, hkeyed, hn, hcap, hdata]

/-- Settles O32: the two engines complete with one outcome, and it fixes ERR, OUTLEN and the output. -/
theorem streamCommandsAreStateless : Obligations.StreamCommandsAreStateless := by
  intro i s s' t t' hi hcipher hkeyed hn hcap hin hexec hexec'
  have ho : outcomeOf i s = outcomeOf i s' := outcomeOf_congr_of_stream hi hcipher hkeyed hn hcap hin
  obtain rfl := exec_next hexec
  obtain rfl := exec_next hexec'
  rw [ho]
  exact ⟨err_complete_congr s s' _, outlen_complete_congr s s' _, outputBytes_complete_congr s s' _⟩

end Sys2Proof.Machine

/-! ### The key schedule: seeding, key mixing, the bootstrap, and KEYSET (41_key_schedule.md R100 to R108) -/

namespace Sys2Proof.Machine

/-! #### Seeding and key mixing (R102 to R104) -/

/-- Cyclic indexing reads the word whose index is the remainder modulo 20 (R102). -/
theorem cyclicConst_eq_getElem (tbl : Vector Word 20) {i : Nat} {j : Fin 20} (h : j.val = i % 20) :
    cyclicConst tbl i = tbl[j] := by
  obtain rfl : j = ⟨i % 20, Nat.mod_lt i (by decide)⟩ := Fin.ext h
  rfl

theorem getElem_seedTables_p (tbl : Vector Word 20) (i : Fin 20) : (seedTables tbl).p[i] = cyclicConst tbl i := by
  simp [seedTables]

theorem getElem_seedTables_s0 (tbl : Vector Word 20) (i : Fin 256) : (seedTables tbl).s0[i] = cyclicConst tbl i := by
  simp [seedTables]

theorem getElem_seedTables_s1 (tbl : Vector Word 20) (i : Fin 256) :
    (seedTables tbl).s1[i] = cyclicConst tbl (256 + i) := by
  simp [seedTables]

/-- Settles O11: every seeded word is cyclic indexing at its place in the sequence, and an index of P is its own remainder. -/
theorem seedingIsCyclic : Obligations.SeedingIsCyclic := by
  refine fun tbl => ⟨fun i => ?_, fun i j hj => ?_, fun i j hj => ?_⟩
  · rw [getElem_seedTables_p, cyclicConst_eq_getElem tbl (Nat.mod_eq_of_lt i.isLt).symm]
  · rw [getElem_seedTables_s0, cyclicConst_eq_getElem tbl hj]
  · rw [getElem_seedTables_s1, cyclicConst_eq_getElem tbl hj]

/-- Settles O12: the formula is the definition of a key word, and the example is its value on the bytes 0x41, 0x42, .... -/
theorem keyWordsAreBigEndian : Obligations.KeyWordsAreBigEndian := by
  refine ⟨fun k j => rfl, fun k hk => ?_⟩
  have hbyte (i : Nat) (hi : i < 16) : k[i] = BitVec.ofNat 8 (0x41 + i) := hk ⟨i, hi⟩
  simp only [keyWord, hbyte]
  decide

/-- Key mixing on one word of P (R104). -/
theorem getElem_mixKey_p (cs : CipherState) (k : Vector Byte 16) (i : Fin 20) :
    (mixKey cs k).p[i] = cs.p[i] ^^^ keyWord k ⟨i.val % 4, Nat.mod_lt _ (by decide)⟩ := by
  simp [mixKey]

/-- Settles O13: key mixing word by word, and its frame. -/
theorem keyMixingIsCyclic : Obligations.KeyMixingIsCyclic := by
  refine fun cs k => ⟨fun i j hj => ?_, mixKey_s0 cs k, mixKey_s1 cs k⟩
  obtain rfl : j = ⟨i.val % 4, Nat.mod_lt _ (by decide)⟩ := Fin.ext hj
  exact getElem_mixKey_p cs k i

/-! #### The bootstrap as one sequence of 266 encryptions (R105, R106) -/

/-- The table and the index of the first word that the pair of encryption `n` goes over (R105). -/
def bootstrapTarget (n : Nat) : Table × Nat :=
  if n < 10 then (.p, 2 * n) else if n < 138 then (.s0, 2 * (n - 10)) else (.s1, 2 * (n - 138))

theorem bootstrapTarget_p {n : Nat} (h : n < 10) : bootstrapTarget n = (.p, 2 * n) := if_pos h

theorem bootstrapTarget_s0 {n : Nat} (h : n < 128) : bootstrapTarget (10 + n) = (.s0, 2 * n) := by
  rw [bootstrapTarget, if_neg (by omega), if_pos (by omega), Nat.add_sub_cancel_left]

theorem bootstrapTarget_s1 (n : Nat) : bootstrapTarget (138 + n) = (.s1, 2 * n) := by
  rw [bootstrapTarget, if_neg (by omega), if_neg (by omega), Nat.add_sub_cancel_left]

/-- The tables and the running block after `n` encryptions of the bootstrap (R105). -/
def bootstrapRun (cs : CipherState) : Nat → CipherState × Block
  | 0 => (cs, (0, 0))
  | n + 1 => bootstrapIteration (bootstrapTarget n).1 (bootstrapRun cs n) (bootstrapTarget n).2

theorem bootstrapRun_succ (cs : CipherState) {n i : Nat} {t : Table} (h : bootstrapTarget n = (t, i)) :
    bootstrapRun cs (n + 1) = bootstrapIteration t (bootstrapRun cs n) i := by
  rw [bootstrapRun, h]

/-- Each encryption is of the block before it, on the tables as they stand (R106). -/
theorem bootstrapRun_block (cs : CipherState) (n : Nat) :
    (bootstrapRun cs (n + 1)).2 = encryptBlock (bootstrapRun cs n).1 (bootstrapRun cs n).2 := by
  rw [bootstrapRun, bootstrapIteration_block]

/-- Each encryption's output goes over its two words (R105). -/
theorem bootstrapRun_tables (cs : CipherState) {n i : Nat} {t : Table} (h : bootstrapTarget n = (t, i)) :
    (bootstrapRun cs (n + 1)).1 = storePair (bootstrapRun cs n).1 t i (bootstrapRun cs (n + 1)).2 := by
  rw [bootstrapRun_succ cs h, bootstrapIteration_tables, bootstrapIteration_block]

/-- The loop over one table is a stretch of the sequence, where that table's words are the targets. -/
theorem bootstrapTable_bootstrapRun (cs : CipherState) (t : Table) (k n : Nat)
    (h : ∀ i, i < n → bootstrapTarget (k + i) = (t, 2 * i)) :
    bootstrapTable t (2 * n) (bootstrapRun cs k) = bootstrapRun cs (k + n) := by
  induction n with
  | zero => rfl
  | succ n ih =>
    rw [bootstrapTable_succ, ih fun i hi => h i (by omega), ← Nat.add_assoc, bootstrapRun_succ cs (h n (by omega))]

/-- The bootstrap's three loops are the whole sequence. -/
theorem bootstrap_eq_bootstrapRun (cs : CipherState) : bootstrap cs = (bootstrapRun cs 266).1 := by
  have hp : bootstrapTable .p 20 (cs, (0, 0)) = bootstrapRun cs 10 :=
    bootstrapTable_bootstrapRun cs .p 0 10 fun i hi => by rw [Nat.zero_add, bootstrapTarget_p hi]
  have hs0 : bootstrapTable .s0 256 (bootstrapRun cs 10) = bootstrapRun cs 138 :=
    bootstrapTable_bootstrapRun cs .s0 10 128 fun i hi => bootstrapTarget_s0 hi
  have hs1 : bootstrapTable .s1 256 (bootstrapRun cs 138) = bootstrapRun cs 266 :=
    bootstrapTable_bootstrapRun cs .s1 138 128 fun i _ => bootstrapTarget_s1 i
  rw [bootstrap, hp, hs0, hs1]

/-- Settles O14: the sequence is `bootstrapRun`; each clause reads its tables through the pair stored at that encryption. -/
theorem bootstrapIsSequential : Obligations.BootstrapIsSequential := by
  intro cs
  refine ⟨fun n => (bootstrapRun cs n).1, fun n => (bootstrapRun cs n).2, rfl, rfl,
    fun n _ => bootstrapRun_block cs n, fun n hn => ?_, fun n hn => ?_, fun n hn => ?_, bootstrap_eq_bootstrapRun cs⟩
  · simp only [bootstrapRun_tables cs (bootstrapTarget_p hn)]
    exact ⟨fun i => getElem_setPair _ _ _ i, rfl, rfl⟩
  · simp only [bootstrapRun_tables cs (bootstrapTarget_s0 hn)]
    exact ⟨fun i => getElem_setPair _ _ _ i, rfl, rfl⟩
  · simp only [bootstrapRun_tables cs (bootstrapTarget_s1 n)]
    exact ⟨fun i => getElem_setPair _ _ _ i, rfl, rfl⟩

/-! #### KEYSET with INLEN = 16 (R107, R108) -/

/-- KEYSET with INLEN = 16 completes with the key schedule of the key bytes and no output (R108). -/
theorem exec_keyset_of_inlen {s : State} (h : s.inlen = 16) :
    exec .keyset s = .next (completeOk s [] (some (keySchedule s.config.constTable (keyBytes s)))) := by
  rw [exec_eq, outcomeOf, keysetCmd, if_neg (not_not_intro h), complete_ok]

/-- Settles O15: both engines bind the key schedule of one constant table and one list of key bytes. -/
theorem keyScheduleDependsOnKeyAlone : Obligations.KeyScheduleDependsOnKeyAlone := by
  refine ⟨fun tbl k => rfl, fun s s' t t' hn hn' htbl hin hexec hexec' => ?_⟩
  have hkey : keyBytes s = keyBytes s' := keyBytes_congr hin
  rw [exec_keyset_of_inlen hn] at hexec
  rw [exec_keyset_of_inlen hn'] at hexec'
  obtain rfl := Host.Outcome.next.inj hexec
  obtain rfl := Host.Outcome.next.inj hexec'
  rw [completeOk_cipher, completeOk_cipher, Option.getD_some, Option.getD_some, htbl, hkey]

/-- Key byte `i` is IN[i] (R71). -/
theorem getElem_keyBytes (s : State) (i : Fin 16) : (keyBytes s)[i] = readIn s i.val := by
  simp [keyBytes]

/-- Settles O22: the completion with success whose new CipherState is the key schedule of the key bytes. -/
theorem keysetBindsTheKey : Obligations.KeysetBindsTheKey := by
  intro s hn
  exact ⟨_, keyBytes s, exec_keyset_of_inlen hn, succeedsWith_completeOk s [] _ (by decide), completeOk_keyed s [] _,
    getElem_keyBytes s, completeOk_cipher s [] _⟩

end Sys2Proof.Machine

/-! ### The round function and the block transforms (42_round_function.md R121 to R126) -/

namespace Sys2Proof.Machine

/-! #### The round function F (R121) -/

/-- A substitution box at the byte of an index reads that index (R23). -/
@[simp] theorem sbox_ofFin (t : Vector Word 256) (a : Fin 256) : sbox t (BitVec.ofFin a) = t[a] := rfl

/-- F on a word of four bytes: S0 at the 1st and 3rd, S1 at the 2nd and 4th (R121). -/
@[simp] theorem roundF_be32 (cs : CipherState) (a b c d : Byte) :
    roundF cs (be32 a b c d) = ((sbox cs.s0 a + sbox cs.s1 b) ^^^ sbox cs.s0 c) + sbox cs.s1 d := by
  simp [roundF]

/-- A word whose value is written out in base 256 is its four digits packed (R10). -/
theorem eq_be32_of_toNat {x : Word} {a b c d : Fin 256}
    (h : x.toNat = a.val * 2 ^ 24 + b.val * 2 ^ 16 + c.val * 2 ^ 8 + d.val) :
    x = be32 (BitVec.ofFin a) (BitVec.ofFin b) (BitVec.ofFin c) (BitVec.ofFin d) :=
  BitVec.eq_of_toNat_eq (h.trans (toNat_be32 _ _ _ _).symm)

/-- F on a word by the base-256 digits of its value (R121). -/
theorem roundF_of_toNat (cs : CipherState) {x : Word} {a b c d : Fin 256}
    (h : x.toNat = a.val * 2 ^ 24 + b.val * 2 ^ 16 + c.val * 2 ^ 8 + d.val) :
    roundF cs x = ((cs.s0[a] + cs.s1[b]) ^^^ cs.s0[c]) + cs.s1[d] := by
  simp [eq_be32_of_toNat h]

/-- F on S-boxes that hold one word each is the same for every word (R121). -/
theorem roundF_of_constant_boxes {cs : CipherState} {u v : Word} (h : ∀ i : Fin 256, cs.s0[i] = u ∧ cs.s1[i] = v)
    (x : Word) : roundF cs x = ((u + v) ^^^ u) + v := by
  have hs0 (y : Byte) : sbox cs.s0 y = u := (h y.toFin).1
  have hs1 (y : Byte) : sbox cs.s1 y = v := (h y.toFin).2
  simp only [roundF, hs0, hs1]

/-- Settles O6: F by the digits of the word, from which the worked example is read off; the corner cases are constant boxes. -/
theorem roundFunctionOnBytes : Obligations.RoundFunctionOnBytes := by
  refine ⟨fun cs x a b c d => roundF_of_toNat cs, fun cs x h => ?_, fun cs x h => ?_, fun cs h => ?_⟩
  · rw [roundF_of_constant_boxes h]
    decide
  · rw [roundF_of_constant_boxes h]
    decide
  · rw [roundF_of_toNat cs (show (0x01020304 : Word).toNat = (1 : Fin 256).val * 2 ^ 24 + (2 : Fin 256).val * 2 ^ 16 +
        (3 : Fin 256).val * 2 ^ 8 + (4 : Fin 256).val by decide), (h 1).1, (h 2).2, (h 3).1, (h 4).2]
    decide

/-! #### The loops of the block transforms, forwards and backwards (R122, R123, R125) -/

/-- A loop over 0, 2, ... that takes each block of a sequence to the next ends at the block after all iterations. -/
theorem foldl_evensBelow {f : Block → Nat → Block} {s : Nat → Block} {m : Nat}
    (h : ∀ i, i < m → f (s i) (2 * i) = s (i + 1)) : (evensBelow (2 * m)).foldl f (s 0) = s m := by
  induction m with
  | zero => rfl
  | succ m ih =>
    rw [evensBelow_succ, List.foldl_concat, ih fun i hi => h i (by omega), h m (by omega)]

/-- The loop in reverse order, where each iteration takes a block of the sequence to the one before it. -/
theorem foldl_reverse_evensBelow {f : Block → Nat → Block} {s : Nat → Block} {m : Nat}
    (h : ∀ i, i < m → f (s (i + 1)) (2 * i) = s i) : (evensBelow (2 * m)).reverse.foldl f (s m) = s 0 := by
  induction m with
  | zero => rfl
  | succ m ih =>
    rw [evensBelow_succ, List.reverse_concat, List.foldl_cons, h m (by omega), ih fun i hi => h i (by omega)]

/-- The double round of R123 on two subkeys within P. -/
theorem encryptIteration_eq (cs : CipherState) (l r : Word) {k : Nat} (hk : k + 1 < 20) :
    encryptIteration cs (l, r) k =
      (l ^^^ cs.p[k] ^^^ roundF cs (r ^^^ roundF cs (l ^^^ cs.p[k]) ^^^ cs.p[k + 1]),
        r ^^^ roundF cs (l ^^^ cs.p[k]) ^^^ cs.p[k + 1]) := by
  simp only [encryptIteration, subkey_eq cs hk, subkey_eq cs (Nat.lt_of_succ_lt hk)]

/-- The loop body of R125 on two subkeys within P. -/
theorem decryptIteration_eq (cs : CipherState) (l r : Word) {k : Nat} (hk : k + 1 < 20) :
    decryptIteration cs (l, r) k =
      (l ^^^ roundF cs r ^^^ cs.p[k], r ^^^ cs.p[k + 1] ^^^ roundF cs (l ^^^ roundF cs r)) := by
  simp only [decryptIteration, subkey_eq cs hk, subkey_eq cs (Nat.lt_of_succ_lt hk)]

/-- The final mixing and the swap after the loop (R123, R124). -/
theorem encryptBlockNr_of_loop {nr : Nat} {cs : CipherState} {b : Block} {l r : Word}
    (h : (evensBelow nr).foldl (encryptIteration cs) b = (l, r)) :
    encryptBlockNr nr cs b = (r ^^^ cs.p[19], l ^^^ cs.p[18]) := by
  rw [encryptBlockNr, h, subkey_eq cs (by decide), subkey_eq cs (by decide)]

/-- The mixing and the swap undone before the loop (R125). -/
theorem decryptBlockNr_eq (nr : Nat) (cs : CipherState) (x y : Word) :
    decryptBlockNr nr cs (x, y) =
      (evensBelow nr).reverse.foldl (decryptIteration cs) (y ^^^ cs.p[18], x ^^^ cs.p[19]) := by
  rw [decryptBlockNr, subkey_eq cs (by decide), subkey_eq cs (by decide)]

/-- Settles O7: each iteration takes the halves `l i`, `r i` to the next ones, so the loop ends at `l m`, `r m`. -/
theorem encryptBlockRunsRoundsThenMixesAndSwaps : Obligations.EncryptBlockRunsRoundsThenMixesAndSwaps := by
  intro cs l r m hm hrounds
  have hiter (i : Nat) (hi : i < m) : encryptIteration cs (l i, r i) (2 * i) = (l (i + 1), r (i + 1)) := by
    obtain ⟨hr, hl⟩ := hrounds ⟨i, by omega⟩ hi
    rw [encryptIteration_eq cs _ _ (by omega), hl, hr]
  have hblock := encryptBlockNr_of_loop (foldl_evensBelow (s := fun i => (l i, r i)) hiter)
  exact ⟨hblock, fun h8 => by subst h8; exact hblock⟩

/-- Settles O8: the loop starts at `l m`, `r m`, and each iteration takes the halves to the ones before. -/
theorem decryptBlockRunsRoundsBackwards : Obligations.DecryptBlockRunsRoundsBackwards := by
  intro cs x y l r m hm hlm hrm hrounds
  have hiter (i : Nat) (hi : i < m) : decryptIteration cs (l (i + 1), r (i + 1)) (2 * i) = (l i, r i) := by
    obtain ⟨hr, hl⟩ := hrounds ⟨i, by omega⟩ hi
    rw [decryptIteration_eq cs _ _ (by omega), hl, hr]
  have hblock : decryptBlockNr (2 * m) cs (x, y) = (l 0, r 0) := by
    rw [decryptBlockNr_eq, ← hlm, ← hrm]
    exact foldl_reverse_evensBelow (s := fun i => (l i, r i)) hiter
  exact ⟨hblock, fun h8 => by subst h8; exact hblock⟩

/-! #### The block transforms are inverse (R126) -/

/-- A loop is undone by the loop of inverse iterations in reverse order. -/
theorem foldl_reverse_foldl {f g : Block → Nat → Block} (h : ∀ k b, g (f b k) k = b) (ks : List Nat) (b : Block) :
    ks.reverse.foldl g (ks.foldl f b) = b := by
  induction ks generalizing b with
  | nil => rfl
  | cons k ks ih => rw [List.foldl_cons, List.reverse_cons, List.foldl_concat, ih, h]

/-- R125 undoes R123. -/
@[simp] theorem decryptBlockNr_encryptBlockNr (nr : Nat) (cs : CipherState) (b : Block) :
    decryptBlockNr nr cs (encryptBlockNr nr cs b) = b := by
  simp only [decryptBlockNr, encryptBlockNr, BitVec.xor_assoc, BitVec.xor_self, BitVec.xor_zero]
  exact foldl_reverse_foldl (decryptIteration_encryptIteration cs) _ b

/-- R123 undoes R125. -/
@[simp] theorem encryptBlockNr_decryptBlockNr (nr : Nat) (cs : CipherState) (b : Block) :
    encryptBlockNr nr cs (decryptBlockNr nr cs b) = b := by
  have hloop := foldl_reverse_foldl (encryptIteration_decryptIteration cs) (evensBelow nr).reverse
  simp only [List.reverse_reverse] at hloop
  simp only [decryptBlockNr, encryptBlockNr, hloop, BitVec.xor_assoc, BitVec.xor_self, BitVec.xor_zero]

/-- Settles O9: the mixings cancel, and each loop undoes the other, iteration by iteration. -/
theorem blockTransformsAreInverse : Obligations.BlockTransformsAreInverse :=
  fun nr cs b => ⟨decryptBlockNr_encryptBlockNr nr cs b, encryptBlockNr_decryptBlockNr nr cs b⟩

end Sys2Proof.Machine

/-! ### The stream codec, chunk by chunk, and its round trip (43_stream_codec.md R140 to R146) -/

namespace Sys2Proof.Machine

/-! #### Chunks of 8 bytes (R140) -/

/-- One chunk more dropped is the first chunk dropped (R140). -/
theorem drop_packBlock_append (b : Block) (rest : List Byte) (q : Nat) :
    (packBlock b ++ rest).drop (8 * (q + 1)) = rest.drop (8 * q) := rfl

/-- Whole chunks dropped before a transform of chunks are the transformed chunks dropped after it (R140). -/
theorem drop_mapBlocks (f : Block → Block) {data : List Byte} (h : data.length % 8 = 0) (q : Nat) :
    (mapBlocks f data).drop (8 * q) = mapBlocks f (data.drop (8 * q)) := by
  refine chunk_induction (motive := fun data => ∀ q, (mapBlocks f data).drop (8 * q) = mapBlocks f (data.drop (8 * q)))
    (fun q => by simp) ?_ data h q
  intro b rest _ ih q
  cases q with
  | zero => rfl
  | succ q => rw [mapBlocks_pack, drop_packBlock_append, drop_packBlock_append, ih q]

/-- Chunk `q` of a transform of chunks is the transform of chunk `q` alone (R140). -/
theorem chunk_mapBlocks (f : Block → Block) {data : List Byte} (h : data.length % 8 = 0) {q : Nat} {b : Block}
    (hb : packBlock b = (data.drop (8 * q)).take 8) : ((mapBlocks f data).drop (8 * q)).take 8 = packBlock (f b) := by
  have hchunk : data.drop (8 * q) = packBlock b ++ (data.drop (8 * q)).drop 8 := by rw [hb, List.take_append_drop]
  rw [drop_mapBlocks f h, hchunk, mapBlocks_pack]
  exact List.take_left' (length_packBlock _)

/-- Every whole chunk is the bytes of a block (R141). -/
theorem exists_packBlock_eq_chunk {data : List Byte} {q : Nat} (hq : q < data.length / 8) :
    ∃ b : Block, packBlock b = (data.drop (8 * q)).take 8 := by
  obtain ⟨b, rest, hdata⟩ := exists_packBlock_append (data := data.drop (8 * q)) (by rw [List.length_drop]; omega)
  exact ⟨b, by rw [hdata, List.take_left' (length_packBlock b)]⟩

/-- Lists of whole chunks with the same chunks are equal. -/
theorem eq_of_chunks_eq {p p' : List Byte} (hlen : p.length = p'.length) (h8 : p.length % 8 = 0)
    (h : ∀ q, q < p.length / 8 → (p.drop (8 * q)).take 8 = (p'.drop (8 * q)).take 8) : p = p' := by
  refine List.ext_getElem? fun i => ?_
  by_cases hi : i < p.length
  · have hchunk := congrArg (·[i % 8]?) (h (i / 8) (by omega))
    simpa [Nat.mod_lt, Nat.div_add_mod] using hchunk
  · rw [List.getElem?_eq_none (by omega), List.getElem?_eq_none (by omega)]

/-- Settles O19: the transform of the padded data keeps its length and takes each chunk alone. -/
theorem encryptStreamIsBlockwise : Obligations.EncryptStreamIsBlockwise :=
  fun cs data => ⟨length_mapBlocks _ (length_pad_mod data), length_encryptStream cs data,
    fun _ _ _ hb => chunk_mapBlocks (encryptBlock cs) (length_pad_mod data) hb⟩

/-! #### The three ends of the decryption of a stream (R144) -/

theorem decryptStream_eq_invalidLength (cs : CipherState) {data : List Byte} (h : data.length = 0 ∨ data.length % 8 ≠ 0) :
    decryptStream cs data = .error .invalidLength := if_pos h

theorem decryptStream_eq_ok {cs : CipherState} {data plain : List Byte} (h0 : 0 < data.length)
    (h8 : data.length % 8 = 0) (h : unpad (mapBlocks (decryptBlock cs) data) = some plain) :
    decryptStream cs data = .ok plain := by
  rw [decryptStream, if_neg (by omega), h]

theorem decryptStream_eq_invalidPadding {cs : CipherState} {data : List Byte} (h0 : 0 < data.length)
    (h8 : data.length % 8 = 0) (h : unpad (mapBlocks (decryptBlock cs) data) = none) :
    decryptStream cs data = .error .invalidPadding := by
  rw [decryptStream, if_neg (by omega), h]

/-- The decryption of a stream has two errors and no other. -/
theorem decryptStream_error {cs : CipherState} {data : List Byte} {e : ErrKind} (h : decryptStream cs data = .error e) :
    e = .invalidLength ∨ e = .invalidPadding := by
  unfold decryptStream at h
  split at h
  · cases h; exact .inl rfl
  · split at h
    · cases h; exact .inr rfl
    · cases h

/-- Settles O20: the chunks of `p` are those of the deciphered data, so it is the deciphered data. -/
theorem decryptStreamIsBlockwise : Obligations.DecryptStreamIsBlockwise := by
  refine fun cs data => ⟨decryptStream_eq_invalidLength cs, fun p h0 h8 hlen hchunks => ?_⟩
  have hp : p = mapBlocks (decryptBlock cs) data := by
    refine eq_of_chunks_eq (hlen.trans (length_mapBlocks _ h8).symm) (hlen ▸ h8) fun q hq => ?_
    rw [hlen] at hq
    obtain ⟨b, hb⟩ := exists_packBlock_eq_chunk hq
    rw [hchunks q b hq hb, chunk_mapBlocks _ h8 hb]
  subst hp
  exact ⟨fun _ => decryptStream_eq_ok h0 h8, decryptStream_eq_invalidPadding h0 h8⟩

/-! #### The round trip (R126, R146, R164) -/

/-- A pad of 1 to 8 bytes, each of them the pad's length, is stripped (R162). -/
theorem unpad_append_replicate (b : List Byte) {n : Nat} (h1 : 1 ≤ n) (h8 : n ≤ 8) :
    unpad (b ++ List.replicate n (BitVec.ofNat 8 n)) = some b := by
  have hlast : (b ++ List.replicate n (BitVec.ofNat 8 n)).getLast? = some (BitVec.ofNat 8 n) := by
    rw [List.getLast?_append, List.getLast?_replicate, if_neg (by omega), Option.some_or]
  have hn : (BitVec.ofNat 8 n).toNat = n := by rw [BitVec.toNat_ofNat, Nat.mod_eq_of_lt (by omega)]
  simp only [unpad, hlast, hn]
  rw [if_neg (by omega), if_neg (by simp), if_pos (by simp)]
  simp

/-- R162 undoes R160. -/
@[simp] theorem unpad_pad (data : List Byte) : unpad (pad data) = some data := by
  obtain ⟨h1, h8⟩ := padLength_bounds data.length
  exact unpad_append_replicate data h1 h8

/-- Deciphering the chunks of an encryption gives the padded data back (R126). -/
theorem mapBlocks_decryptBlock_encryptStream (cs : CipherState) (data : List Byte) :
    mapBlocks (decryptBlock cs) (encryptStream cs data) = pad data := by
  have hinv : (fun b => decryptBlock cs (encryptBlock cs b)) = fun b => b :=
    funext (decryptBlockNr_encryptBlockNr Config.nr cs)
  rw [encryptStream, mapBlocks_comp _ _ (length_pad_mod data), hinv, mapBlocks_id (length_pad_mod data)]

/-- An encryption has 1 to 8 bytes more than the data, in whole chunks (R142, R161). -/
theorem length_encryptStream_bounds (cs : CipherState) (data : List Byte) :
    (encryptStream cs data).length % 8 = 0 ∧ data.length < (encryptStream cs data).length ∧
      (encryptStream cs data).length ≤ data.length + 8 := by
  rw [length_encryptStream, padLength]
  omega

/-- Decrypting an encryption gives the data back (R146). -/
@[simp] theorem decryptStream_encryptStream (cs : CipherState) (data : List Byte) :
    decryptStream cs (encryptStream cs data) = .ok data := by
  obtain ⟨h8, hlt, -⟩ := length_encryptStream_bounds cs data
  refine decryptStream_eq_ok (by omega) h8 ?_
  rw [mapBlocks_decryptBlock_encryptStream, unpad_pad]

/-- Settles O21: deciphering gives the padded data back, and its pad is stripped. -/
theorem streamRoundTrip : Obligations.StreamRoundTrip :=
  fun cs data => ⟨decryptStream_encryptStream cs data, length_encryptStream_bounds cs data⟩

end Sys2Proof.Machine

/-! ### ENCRYPT and DECRYPT: where they complete, and with what (43_stream_codec.md R143, R145, R146) -/

namespace Sys2Proof.Machine

/-! #### What an outcome makes of a command (R90, R92, R93) -/

/-- A command whose outcome is an error fails with that error's code (R93). -/
theorem exec_fails {i : Instr} {s : State} {e : ErrKind} (h : outcomeOf i s = .err e) :
    ∃ t, exec i s = .next t ∧ FailsWith s t e.code :=
  ⟨_, exec_eq i s, by rw [h]; exact failsWith_completeErr s e⟩

/-- A command whose outcome is an output, without a new CipherState, succeeds with it and keeps the binding (R92). -/
theorem exec_succeeds {i : Instr} {s : State} {out : List Byte} (h : outcomeOf i s = .ok out none)
    (hout : out.length < 2 ^ 32) : ∃ t, exec i s = .next t ∧ SucceedsWith s t out ∧ BindingKept s t := by
  refine ⟨_, exec_eq i s, ?_⟩
  rw [h]
  exact ⟨succeedsWith_completeOk s out none hout, rfl, rfl⟩

/-- ERR after a command is 0, or the code of the error that is its outcome (R32, R92, R93). -/
theorem exec_err {i : Instr} {s t : State} (h : exec i s = .next t) :
    t.err = 0 ∨ ∃ e, outcomeOf i s = .err e ∧ t.err = e.code := by
  obtain rfl := exec_next h
  cases ho : outcomeOf i s with
  | ok out newCS => exact .inl rfl
  | err e => exact .inr ⟨e, rfl, rfl⟩

/-! #### ENCRYPT (R143) -/

theorem outcomeOf_encrypt_of_unkeyed {s : State} (hk : s.keyed = false) : outcomeOf .encrypt s = .err .notKeyed := if_pos hk

theorem outcomeOf_encrypt_of_cap_lt {s : State} (hk : s.keyed = true) (hcap : s.config.cap - 8 < s.inlen.toNat) :
    outcomeOf .encrypt s = .err .capacityExceeded := by
  rw [outcomeOf, encryptCmd, if_neg (by simp [hk]), if_pos hcap]

theorem outcomeOf_encrypt_of_le_cap {s : State} (hk : s.keyed = true) (hcap : s.inlen.toNat ≤ s.config.cap - 8) :
    outcomeOf .encrypt s = .ok (encryptStream s.cipher (inputBytes s)) none := by
  rw [outcomeOf, encryptCmd, if_neg (by simp [hk]), if_neg (by omega)]

/-- ENCRYPT has two errors and no other (R143). -/
theorem outcomeOf_encrypt_err {s : State} {e : ErrKind} (h : outcomeOf .encrypt s = .err e) :
    e = .notKeyed ∨ e = .capacityExceeded := by
  simp only [outcomeOf, encryptCmd] at h
  split at h
  · cases h; exact .inl rfl
  · split at h
    · cases h; exact .inr rfl
    · cases h

/-- Settles O24: the outcome is the encryption, and its length fits OUT. -/
theorem encryptCompletes : Obligations.EncryptCompletes := by
  intro s hc hk hcap
  have ho := outcomeOf_encrypt_of_le_cap hk hcap
  have hfits := length_out_le hc ho
  obtain ⟨-, -, hcap_le, -⟩ := hc
  obtain ⟨t, hexec, hsucc, hbind⟩ := exec_succeeds ho (by omega)
  have hlen := hsucc.outlen
  refine ⟨t, hexec, hsucc, hbind, ?_, by omega⟩
  rw [hlen, length_encryptStream, length_inputBytes, padLength]

/-- Settles O25: the outcome under each check that fails, and the errors an outcome of ENCRYPT can be. -/
theorem encryptErrorsInOrder : Obligations.EncryptErrorsInOrder := by
  refine ⟨fun s hk => exec_fails (outcomeOf_encrypt_of_unkeyed hk),
    fun s hk hcap => exec_fails (outcomeOf_encrypt_of_cap_lt hk hcap), fun s t hexec => ?_⟩
  rcases exec_err hexec with h0 | ⟨e, ho, herr⟩
  · exact .inl h0
  · rcases outcomeOf_encrypt_err ho with rfl | rfl
    · exact .inr (.inl herr)
    · exact .inr (.inr herr)

/-! #### DECRYPT (R145) -/

theorem outcomeOf_decrypt_of_unkeyed {s : State} (hk : s.keyed = false) : outcomeOf .decrypt s = .err .notKeyed := if_pos hk

theorem outcomeOf_decrypt_of_cap_lt {s : State} (hk : s.keyed = true) (hcap : s.config.cap < s.inlen.toNat) :
    outcomeOf .decrypt s = .err .capacityExceeded := by
  rw [outcomeOf, decryptCmd, if_neg (by simp [hk]), if_pos hcap]

theorem outcomeOf_decrypt_of_error {s : State} {e : ErrKind} (hk : s.keyed = true) (hcap : s.inlen.toNat ≤ s.config.cap)
    (h : decryptStream s.cipher (inputBytes s) = .error e) : outcomeOf .decrypt s = .err e := by
  rw [outcomeOf, decryptCmd, if_neg (by simp [hk]), if_neg (by omega), h]

theorem outcomeOf_decrypt_of_ok {s : State} {plain : List Byte} (hk : s.keyed = true)
    (hcap : s.inlen.toNat ≤ s.config.cap) (h : decryptStream s.cipher (inputBytes s) = .ok plain) :
    outcomeOf .decrypt s = .ok plain none := by
  rw [outcomeOf, decryptCmd, if_neg (by simp [hk]), if_neg (by omega), h]

/-- DECRYPT has four errors and no other (R145). -/
theorem outcomeOf_decrypt_err {s : State} {e : ErrKind} (h : outcomeOf .decrypt s = .err e) :
    e = .notKeyed ∨ e = .capacityExceeded ∨ e = .invalidLength ∨ e = .invalidPadding := by
  simp only [outcomeOf, decryptCmd] at h
  split at h
  · cases h; exact .inl rfl
  · split at h
    · cases h; exact .inr (.inl rfl)
    · split at h
      · next e' hdec => cases h; exact .inr (.inr (decryptStream_error hdec))
      · cases h

/-- Settles O26: the outcome is the stripped plaintext, which is shorter than the input. -/
theorem decryptCompletes : Obligations.DecryptCompletes := by
  intro s plain hk hcap hdec
  obtain ⟨-, -, hlt, hle⟩ := decryptStream_ok hdec
  rw [← inputBytes, length_inputBytes] at hlt hle
  obtain ⟨t, hexec, hsucc, hbind⟩ := exec_succeeds (outcomeOf_decrypt_of_ok hk hcap hdec) (hlt.trans s.inlen.isLt)
  have hlen := hsucc.outlen
  exact ⟨t, hexec, hsucc, hbind, by omega, by omega⟩

/-- Settles O27: the outcome under each check that fails, and the errors an outcome of DECRYPT can be. -/
theorem decryptErrorsInOrder : Obligations.DecryptErrorsInOrder := by
  refine ⟨fun s hk => exec_fails (outcomeOf_decrypt_of_unkeyed hk),
    fun s hk hcap => exec_fails (outcomeOf_decrypt_of_cap_lt hk hcap), fun s hk hcap hn => ?_,
    fun s hk hcap _ _ hdec => exec_fails (outcomeOf_decrypt_of_error hk hcap hdec), fun s t hexec => ?_⟩
  · have hlen : (inputBytes s).length = 0 ∨ (inputBytes s).length % 8 ≠ 0 := by
      rw [length_inputBytes]
      exact hn.imp_left fun h => by rw [h]; rfl
    exact exec_fails (outcomeOf_decrypt_of_error hk hcap (decryptStream_eq_invalidLength s.cipher hlen))
  · rcases exec_err hexec with h0 | ⟨e, ho, herr⟩
    · exact .inl h0
    · rcases outcomeOf_decrypt_err ho with rfl | rfl | rfl | rfl
      · exact .inr (.inr (.inr (.inl herr)))
      · exact .inr (.inr (.inr (.inr herr)))
      · exact .inr (.inl herr)
      · exact .inr (.inr (.inl herr))

/-! #### ENCRYPT, a copy of OUT to IN, DECRYPT (R146) -/

/-- A copy of OUT[0..OUTLEN-1] to IN, with OUTLEN in INLEN, makes the output the input. -/
theorem inputBytes_of_copy {t u : State} (hn : u.inlen = t.outlen)
    (hcopy : ∀ j, j < t.outlen.toNat → readIn u j = readOut t j) : inputBytes u = outputBytes t := by
  rw [inputBytes, outputBytes, hn]
  exact List.map_congr_left fun j hj => hcopy j (List.mem_range.1 hj)

/-- An output equal to an input of the same length has the same bytes at the same indices. -/
theorem readOut_of_outputBytes_eq {s v : State} (hn : v.outlen = s.inlen) (h : outputBytes v = inputBytes s) {i : Nat}
    (hi : i < s.inlen.toNat) : readOut v i = readIn s i := by
  rw [outputBytes, inputBytes, hn] at h
  exact List.map_inj_left.1 h i (List.mem_range.2 hi)

/-- Settles O35: ENCRYPT leaves the encryption in OUT, and DECRYPT completes with what it decrypts to. -/
theorem encryptThenDecryptGivesThePlaintext : Obligations.EncryptThenDecryptGivesThePlaintext := by
  intro s t u hc hk hcap hexec hconfig hcipher hkeyed hn hcopy
  obtain ⟨t', hexec', henc, hbind, -, hfits⟩ := encryptCompletes s hc hk hcap
  obtain rfl : t' = t := Host.Outcome.next.inj (hexec'.symm.trans hexec)
  rw [← henc.keeps.config] at hfits
  have hdec : decryptStream u.cipher (inputBytes u) = .ok (inputBytes s) := by
    rw [inputBytes_of_copy hn hcopy, henc.out_bytes, hcipher, hbind.cipher]
    exact decryptStream_encryptStream s.cipher (inputBytes s)
  obtain ⟨v, hexecv, hplain, -, -, -⟩ :=
    decryptCompletes u _ ((hkeyed.trans hbind.keyed).trans hk) (by rwa [hn, hconfig]) hdec
  have hlen : v.outlen = s.inlen := BitVec.eq_of_toNat_eq (hplain.outlen.trans (length_inputBytes s))
  exact ⟨hfits, v, hexecv, hplain.err, hlen, fun i hi => readOut_of_outputBytes_eq hlen hplain.out_bytes hi⟩

end Sys2Proof.Machine

/-! ### The padding scheme (44_padding.md R160 to R164) -/

namespace Sys2Proof.Machine

/-- Settles O16: N is the model's pad length. -/
theorem padAppendsItsLength : Obligations.PadAppendsItsLength := by
  intro data
  obtain ⟨h1, h8⟩ := padLength_bounds data.length
  have hlen := length_pad data
  exact ⟨padLength data.length, h1, h8, rfl, rfl, hlen, length_pad_mod data, by omega⟩

/-- A list `data` ends in a good pad for the pad byte `last`: as many bytes as `last` says, 1 to 8 of them, each of them
`last` (R162, R163). -/
def EndsInPad (data : List Byte) (last : Byte) : Prop :=
  1 ≤ last.toNat ∧ last.toNat ≤ 8 ∧ last.toNat ≤ data.length ∧ ∀ x ∈ data.drop (data.length - last.toNat), x = last

/-- What unpad answers on a list with a last byte (R162). -/
theorem unpad_eq_some_iff_endsInPad {data : List Byte} {last : Byte} (hlast : data.getLast? = some last)
    (plain : List Byte) :
    unpad data = some plain ↔ EndsInPad data last ∧ data.take (data.length - last.toNat) = plain := by
  simp only [unpad, hlast, EndsInPad]
  split
  · next hn => exact iff_of_false (by simp) (by omega)
  · next hn =>
    split
    · next hlen => exact iff_of_false (by simp) (by omega)
    · next hlen =>
      have hpre : 1 ≤ last.toNat ∧ last.toNat ≤ 8 ∧ last.toNat ≤ data.length := by omega
      simp [hpre, List.all_eq_true]

/-- unpad fails exactly where no good pad stands at the end. -/
theorem unpad_eq_none_iff_not_endsInPad {data : List Byte} {last : Byte} (hlast : data.getLast? = some last) :
    unpad data = none ↔ ¬ EndsInPad data last := by
  simp [Option.eq_none_iff_forall_ne_some, unpad_eq_some_iff_endsInPad hlast]

/-- A property of every byte from index `k` on, said of the indices. -/
theorem forall_mem_drop_iff_getElem? {data : List Byte} {k : Nat} {last : Byte} :
    (∀ x ∈ data.drop k, x = last) ↔ ∀ j, k ≤ j → j < data.length → data[j]? = some last := by
  simp only [List.mem_drop_iff_getElem, forall_exists_index]
  constructor
  · intro h j hk hj
    rw [List.getElem?_eq_getElem hj, h data[j] (j - k) (by omega) (by simp [Nat.add_sub_cancel' hk])]
  · rintro h x i hi rfl
    exact (List.getElem_eq_iff _).2 (h (k + i) (by omega) (by omega))

/-- The ways a list with a last byte fails to end in a good pad (R162's conditions but the empty list). -/
theorem not_endsInPad_iff {data : List Byte} {last : Byte} :
    ¬ EndsInPad data last ↔ last.toNat = 0 ∨ 8 < last.toNat ∨ data.length < last.toNat ∨
      ∃ j, data.length - last.toNat ≤ j ∧ j < data.length ∧ data[j]? ≠ some last := by
  rw [EndsInPad, forall_mem_drop_iff_getElem?]
  simp only [not_and_or, not_forall, not_le, Nat.lt_one_iff, exists_prop, ne_eq]

/-- Settles O17: the last byte is given, so unpad's answer turns on the pad it announces. -/
theorem unpadIsStrict : Obligations.UnpadIsStrict := by
  refine ⟨rfl, fun init last => ?_⟩
  have hlast : (init ++ [last]).getLast? = some last := List.getLast?_concat
  exact ⟨(unpad_eq_none_iff_not_endsInPad hlast).trans not_endsInPad_iff,
    fun plain h => ((unpad_eq_some_iff_endsInPad hlast plain).1 h).2.symm⟩

/-- A list that ends in a good pad is what stands before the pad, then N copies of N (R164). -/
theorem EndsInPad.exists_eq_append_replicate {data : List Byte} {last : Byte} (h : EndsInPad data last) :
    ∃ n : Nat, 1 ≤ n ∧ n ≤ 8 ∧
      data = data.take (data.length - last.toNat) ++ List.replicate n (BitVec.ofNat 8 n) := by
  obtain ⟨h1, h8, hlen, hall⟩ := h
  have hdrop : data.drop (data.length - last.toNat) = List.replicate last.toNat last :=
    List.eq_replicate_iff.2 ⟨by rw [List.length_drop]; omega, hall⟩
  refine ⟨last.toNat, h1, h8, ?_⟩
  rw [BitVec.ofNat_toNat, BitVec.setWidth_eq, ← hdrop, List.take_append_drop]

/-- unpad succeeds exactly on a list followed by a pad of 1 to 8 bytes, and gives that list (R164). -/
theorem unpad_eq_some_iff {data b : List Byte} :
    unpad data = some b ↔ ∃ n : Nat, 1 ≤ n ∧ n ≤ 8 ∧ data = b ++ List.replicate n (BitVec.ofNat 8 n) := by
  constructor
  · intro h
    obtain rfl | ⟨init, last, rfl⟩ := data.eq_nil_or_concat'
    · cases h
    · obtain ⟨hpad, rfl⟩ := (unpad_eq_some_iff_endsInPad List.getLast?_concat b).1 h
      exact hpad.exists_eq_append_replicate
  · rintro ⟨n, h1, h8, rfl⟩
    exact unpad_append_replicate b h1 h8

/-- A pad that fills up to whole chunks has the length R160 gives it. -/
theorem eq_padLength {m n : Nat} (h1 : 1 ≤ n) (h8 : n ≤ 8) (h : (m + n) % 8 = 0) : n = padLength m := by
  unfold padLength; omega

/-- On whole chunks unpad undoes pad and nothing else (R164). -/
theorem unpad_eq_some_iff_eq_pad {data b : List Byte} (hmod : data.length % 8 = 0) :
    unpad data = some b ↔ data = pad b := by
  constructor
  · intro h
    obtain ⟨n, h1, h8, rfl⟩ := unpad_eq_some_iff.1 h
    rw [List.length_append, List.length_replicate] at hmod
    rw [pad, ← eq_padLength h1 h8 hmod]
  · rintro rfl
    exact unpad_pad b

/-- A list is recovered from its padded form, so two lists with one padded form are equal (R164). -/
theorem pad_injective : Function.Injective pad := fun b b' h =>
  Option.some.inj (by rw [← unpad_pad b, h, unpad_pad b'])

/-- Settles O18: the laws of R164, each by its lemma. -/
theorem unpadInvertsPad : Obligations.UnpadInvertsPad :=
  ⟨unpad_pad, fun _ _ => unpad_eq_some_iff, fun _ _ _ hmod => unpad_eq_some_iff_eq_pad hmod,
    fun _ _ h => pad_injective h⟩

end Sys2Proof.Machine

/-! ### Errors: KEYSET's one error, illegal words, and a failed command repeated (60_exceptions.md R181, R186, R190) -/

namespace Sys2Proof.Machine

/-! #### KEYSET with INLEN other than 16 (R181) -/

theorem outcomeOf_keyset_of_inlen_ne {s : State} (hn : s.inlen ≠ 16) : outcomeOf .keyset s = .err .invalidKeyLength :=
  if_pos hn

/-- KEYSET has one error, and only for an INLEN other than 16 (R181). -/
theorem outcomeOf_keyset_err {s : State} {e : ErrKind} (h : outcomeOf .keyset s = .err e) :
    e = .invalidKeyLength ∧ s.inlen ≠ 16 := by
  simp only [outcomeOf, keysetCmd] at h
  split at h
  · next hn => cases h; exact ⟨rfl, hn⟩
  · cases h

/-- Settles O23: the outcome when the length check fails, and the one error an outcome of KEYSET can be. -/
theorem keysetRejectsOtherLengths : Obligations.KeysetRejectsOtherLengths := by
  refine ⟨fun s hn => exec_fails (outcomeOf_keyset_of_inlen_ne hn), fun s t hexec hne => ?_⟩
  rcases exec_err hexec with h0 | ⟨e, ho, herr⟩
  · exact absurd h0 hne
  · obtain ⟨rfl, hn⟩ := outcomeOf_keyset_err ho
    exact ⟨herr, hn⟩

/-! #### Illegal words (R73, R186) -/

/-- An illegal command fails with IllegalCommand, whatever its fields and the state (R186). -/
theorem exec_illegal_fails (s : State) (op : BitVec 4) (mbz : BitVec 28) :
    ∃ t, exec (.illegal op mbz) s = .next t ∧ FailsWith s t 5 :=
  exec_fails (e := .illegalCommand) rfl

/-- Settles O28: a word that is none of 1, 2, 3 decodes to an illegal command, and its write to CMD runs that command. -/
theorem illegalWordsCompleteWithError : Obligations.IllegalWordsCompleteWithError := by
  refine ⟨exec_illegal_fails, fun s w rest h1 h2 h3 hp => ?_⟩
  obtain ⟨-, -, -, hillegal⟩ := exactlyThreeWordsSelectACommand w
  obtain ⟨op, mbz, hdec⟩ := hillegal.2 ⟨h1, h2, h3⟩
  rw [commandWriteRunsDecodedCommand s w rest hp, hdec]
  exact exec_illegal_fails { s with pending := rest } op mbz

/-! #### A failed command, repeated (R190) -/

/-- A command's outcome is the same in a state with the same parameters, input and binding (R95, R107). -/
theorem outcomeOf_eq_of_kept (i : Instr) {s t : State} (hkeeps : CommandKeeps s t) (hbind : BindingKept s t) :
    outcomeOf i t = outcomeOf i s := by
  have hstream {j : Instr} (hj : j = .encrypt ∨ j = .decrypt) : outcomeOf j t = outcomeOf j s :=
    outcomeOf_congr_of_stream hj hbind.cipher hbind.keyed hkeeps.inlen (congrArg Config.cap hkeeps.config)
      fun k _ => hkeeps.in_bytes k
  cases i with
  | keyset =>
    have hkey : keyBytes t = keyBytes s := keyBytes_congr fun k _ => hkeeps.in_bytes k
    simp only [outcomeOf, keysetCmd, hkeeps.inlen, hkeeps.config, hkey]
  | encrypt => exact hstream (.inl rfl)
  | decrypt => exact hstream (.inr rfl)
  | illegal op mbz => rfl

/-- Settles O33: the failure kept all that the outcome depends on, so the repetition completes with the same outcome. -/
theorem retryGivesTheSameError : Obligations.RetryGivesTheSameError := by
  intro i s t u hexec herr hretry
  have hfails : FailsWith s t t.err := everyErrorLeavesTheBinding i s t hexec herr
  have ho : outcomeOf i t = outcomeOf i s := outcomeOf_eq_of_kept i hfails.keeps hfails.binding
  calc u.err
      = (complete t (outcomeOf i t)).err := by rw [exec_next hretry]
    _ = (complete s (outcomeOf i s)).err := by rw [ho]; exact err_complete_congr t s _
    _ = t.err := by rw [← exec_next hexec]

end Sys2Proof.Machine

/-! ### With no access left (70_reset_and_hazards.md R201) -/

namespace Sys2Proof.Machine

/-- Settles O45: the step of a state whose list of events is empty. -/
theorem engineWaitsForTheHost : Obligations.EngineWaitsForTheHost :=
  fun _ hp => step_nil hp

end Sys2Proof.Machine
